-- ==== Sys2Proof/Word.lean ====
section
/-! DEFINITION. The word types of the core and the widths of the spec (00_scope.md R7, 10_state.md).
Bit 0 is the least significant bit. -/

namespace Sys2Proof

/-- A byte: the width of registers A and B, and of one byte lane (10_state.md R15, 20_memory.md R42). -/
abbrev Byte := BitVec 8

/-- A bus word, and a command word (20_memory.md R33, 30_encoding.md R50). -/
abbrev Word := BitVec 32

/-- A byte offset in the register window (20_memory.md R32). -/
abbrev Offset := BitVec 16

/-- A Step record as the host reads it (30_encoding.md R56). -/
abbrev RecordWord := BitVec 64

end Sys2Proof
end

