-- ==== Sys2Proof/Config.lean ====
section
/-! DEFINITION. The parameters of the core (00_scope.md R5): the fixed ones as numbers, the OPEN ones and
the free values as constants without a body, so that nothing can be proved of their values. -/

namespace Sys2Proof.Config

/-- The smallest and largest legal field degree (00_scope.md R5). -/
def mMin : Nat := 2
def mMax : Nat := 8

/-- The width of register X, and so of a reducer input (00_scope.md R5, D5). -/
def xw : Nat := 16

/-- The width of register E (00_scope.md R5, D6). -/
def ew : Nat := 32

/-- The number of entries of the trace buffer (00_scope.md R5, D9). -/
def traceDepth : Nat := 2048

/-- OPEN parameter TRACE_NESTED (00_scope.md R5, D10; log entry 7). -/
opaque traceNested : Bool

/-- OPEN parameter CORE_BASE: the byte address of the register window (20_memory.md R32, D7; log entry 9). -/
opaque coreBase : Nat

/-- OPEN parameters DEFAULT_POLY[m] for m = 3, 4, 6, 7 (10_state.md R28, D4; log entry 8): which of the
irreducible polynomials of degree m the table holds, counted from 0 in rising order. -/
opaque defaultPick3 : Fin 2
opaque defaultPick4 : Fin 3
opaque defaultPick6 : Fin 9
opaque defaultPick7 : Fin 18

/-- FREE VALUE: what working register number k holds after a command, for the n-th draw
(10_state.md R29, 93 I9; log entry 4). -/
opaque freeBits : Nat → Nat → BitVec 32

/-- FREE VALUE: how the platform answers an access held across a reset, for the n-th draw
(70_reset_and_hazards.md R113, 93 I13; log entry 10). -/
opaque heldAnswer : Nat → Fin 3

end Sys2Proof.Config
end

