-- ==== Sys2Proof/Syntax.lean ====
section
/-! DEFINITION. The commands of the core (30_encoding.md R50, R51; spec/opcode_table.json): one constructor
a row. The one field of a command is T, bit 4 of its word: whether its Step records are kept. -/

namespace Sys2Proof

inductive Instr where
  /-- Load and validate a field configuration (40_configuration.md R66). -/
  | setcfg (t : Bool)
  /-- Load the default configuration of a degree (40_configuration.md R67). -/
  | defcfg (t : Bool)
  /-- Degree of a polynomial (41_primitives.md R73). -/
  | deg (t : Bool)
  /-- Field addition and subtraction (41_primitives.md R74). -/
  | add (t : Bool)
  /-- Reduction modulo the configured polynomial (42_reducer.md R78). -/
  | red (t : Bool)
  /-- Field multiplication (43_multiplier.md R82). -/
  | mul (t : Bool)
  /-- Binary exponentiation (44_exponentiator.md R86). -/
  | pow (t : Bool)
  /-- Multiplicative inverse (45_inverter.md R91). -/
  | inv (t : Bool)
  /-- Field division (46_division.md R94). -/
  | div (t : Bool)
  deriving DecidableEq, Repr

/-- The trace-enable bit T of a command (30_encoding.md R50). -/
def Instr.traced : Instr → Bool
  | .setcfg t => t
  | .defcfg t => t
  | .deg t => t
  | .add t => t
  | .red t => t
  | .mul t => t
  | .pow t => t
  | .inv t => t
  | .div t => t

end Sys2Proof
end

