-- ==== Sys2Proof/WellFormed.lean ====
section
/-! DEFINITION. Which command words are legal, written from the rows of spec/opcode_table.json, apart from the
decoder; and which commands are well formed. -/

namespace Sys2Proof

/-- A row of the opcode table: a word belongs to it when its bits under the mask are the match. -/
structure OpcodeRow where
  mnemonic : String
  pattern  : Word
  mask     : Word
  deriving DecidableEq, Repr

def OpcodeRow.matchesWord (row : OpcodeRow) (w : Word) : Bool := (w &&& row.mask) == row.pattern

/-- spec/opcode_table.json, row by row; every row has the mask 0xFFFFFFEF (30_encoding.md R51). -/
def opcodeTable : List OpcodeRow :=
  [ ⟨"SETCFG", 0x00000001, 0xFFFFFFEF⟩,
    ⟨"DEFCFG", 0x00000002, 0xFFFFFFEF⟩,
    ⟨"DEG", 0x00000003, 0xFFFFFFEF⟩,
    ⟨"ADD", 0x00000004, 0xFFFFFFEF⟩,
    ⟨"RED", 0x00000005, 0xFFFFFFEF⟩,
    ⟨"MUL", 0x00000006, 0xFFFFFFEF⟩,
    ⟨"POW", 0x00000007, 0xFFFFFFEF⟩,
    ⟨"INV", 0x00000008, 0xFFFFFFEF⟩,
    ⟨"DIV", 0x00000009, 0xFFFFFFEF⟩ ]

/-- A legal command word: one that a row of the table matches (30_encoding.md R51, R53). -/
def legalWord (w : Word) : Bool := opcodeTable.any fun row => row.matchesWord w

/-- A command has no field but T, and both values of T are legal (30_encoding.md R50): the type leaves
nothing to check. -/
def Instr.wf : Instr → Bool
  | .setcfg _ => true
  | .defcfg _ => true
  | .deg _ => true
  | .add _ => true
  | .red _ => true
  | .mul _ => true
  | .pow _ => true
  | .inv _ => true
  | .div _ => true

end Sys2Proof
end

