-- ==== Sys2Proof/Decode.lean ====
section
/-! DEFINITION. The decoder, total on every word and on every list of bytes, and after it the encoder
(30_encoding.md R50 to R53). -/

namespace Sys2Proof

/-- Why a word is no command (30_encoding.md R52, R53). All but `tooShort` are the one error IllegalCommand;
`tooShort` says that fewer than four bytes were given, which no write of CMD does. -/
inductive IllegalReason where
  | reservedBits
  | reservedOpcode
  | tooShort
  deriving DecidableEq, Repr

inductive Decoded where
  | command (i : Instr)
  | illegal (why : IllegalReason)
  deriving DecidableEq, Repr

/-- Field OP, bits 3:0 (30_encoding.md R50). -/
def opField (w : Word) : BitVec 4 := w.extractLsb' 0 4

/-- Field T, bit 4 (30_encoding.md R50). -/
def tField (w : Word) : Bool := w.getLsbD 4

/-- Field RSV, bits 31:5 (30_encoding.md R50). -/
def rsvField (w : Word) : BitVec 27 := w.extractLsb' 5 27

/-- The opcode map (30_encoding.md R51). -/
def opmap (op : BitVec 4) (t : Bool) : Option Instr :=
  match op.toNat with
  | 0x1 => some (.setcfg t)
  | 0x2 => some (.defcfg t)
  | 0x3 => some (.deg t)
  | 0x4 => some (.add t)
  | 0x5 => some (.red t)
  | 0x6 => some (.mul t)
  | 0x7 => some (.pow t)
  | 0x8 => some (.inv t)
  | 0x9 => some (.div t)
  | _ => none

/-- Decoding of a command word: the reserved bits first, then OP (30_encoding.md R52). -/
def decodeWord (w : Word) : Decoded :=
  if rsvField w ≠ 0 then .illegal .reservedBits
  else
    match opmap (opField w) (tField w) with
    | some i => .command i
    | none => .illegal .reservedOpcode

/-- Four byte lanes as a word, lane 0 the least significant (20_memory.md R42). -/
def wordOfLanes (b0 b1 b2 b3 : Byte) : Word := b3 ++ b2 ++ b1 ++ b0

/-- Byte lane j of a word carries bits 8j+7 to 8j (20_memory.md R42). -/
def byteLane (w : Word) (j : Nat) : Byte := w.extractLsb' (8 * j) 8

/-- The four bytes of a word from the lowest address up (20_memory.md R42). -/
def lanesOfWord (w : Word) : List Byte := [byteLane w 0, byteLane w 1, byteLane w 2, byteLane w 3]

/-- Decoding of bytes as the bus carries them, with the bytes left over. -/
def decodeBytes : List Byte → Decoded × List Byte
  | b0 :: b1 :: b2 :: b3 :: rest => (decodeWord (wordOfLanes b0 b1 b2 b3), rest)
  | short => (.illegal .tooShort, short)

/-- The opcode of a command (30_encoding.md R51). -/
def opcode : Instr → BitVec 4
  | .setcfg _ => 0x1
  | .defcfg _ => 0x2
  | .deg _ => 0x3
  | .add _ => 0x4
  | .red _ => 0x5
  | .mul _ => 0x6
  | .pow _ => 0x7
  | .inv _ => 0x8
  | .div _ => 0x9

/-- The word of a command: T and OP, zero-extended (30_encoding.md R51). -/
def encode (i : Instr) : Word := (0 : BitVec 27) ++ BitVec.ofBool i.traced ++ opcode i

/-- The bytes of a command as the bus carries them. -/
def encodeBytes (i : Instr) : List Byte := lanesOfWord (encode i)

/-- The lowest `nbits` bits of `w` as a command word; the bits above are 0. -/
def tableWord (nbits w : Nat) : Word := BitVec.ofNat 32 (w % 2 ^ nbits)

/-- The command the decoder reads from a row of the opcode table. A number of more than 32 bits is no
command word. -/
def decodeTableWord (nbits w : Nat) : Option Instr :=
  if w % 2 ^ nbits < 2 ^ 32 then
    match (decodeBytes (lanesOfWord (tableWord nbits w))).1 with
    | .command i => some i
    | .illegal _ => none
  else none

end Sys2Proof
end

