-- ==== Sys2Proof/Machine/State.lean ====
section
/-! DEFINITION. The state of the core (10_state.md), the inputs that reach it, the reasons a step can stop, and
the state after reset. -/

namespace Sys2Proof.Machine

/-- The field configuration CFG (10_state.md R24): bits 3:0 M, bits 16:8 POLY. -/
structure FieldCfg where
  m    : BitVec 4
  poly : BitVec 9
  deriving DecidableEq, Repr

/-- The errors of 60_exceptions.md R105, in the order of their codes 1 to 5. -/
inductive CoreError where
  | invalidModulus
  | noInverse
  | notInvertible
  | invalidFieldSize
  | illegalCommand
  deriving DecidableEq, Repr

/-- The field STATUS.ERR: no error, or the error of the last command (10_state.md R23). The codes 6 and 7,
which are never produced, have no name here (log entry 16). -/
inductive ErrField where
  | clear
  | raised (e : CoreError)
  deriving DecidableEq, Repr

/-- A Step record, with the fields and widths of 30_encoding.md R58 to R62. -/
inductive StepRecord where
  /-- One bit-iteration of shift-and-add multiplication (R58). -/
  | mul (i : BitVec 3) (bBit : Bool) (aBefore aAfter : BitVec 8) (pBefore pAfter : BitVec 16)
  /-- One XOR-reduction pass; `carry` holds the shift amount (R59). -/
  | reduce (carry : BitVec 8) (before after : BitVec 16)
  /-- The net effect of a full reduction call (R60). -/
  | mod (before after : BitVec 16)
  /-- One bit-iteration of binary exponentiation (R61). -/
  | exp (bit : Bool) (baseBefore baseAfter accBefore accAfter : BitVec 8)
  /-- One step of the extended Euclidean algorithm (R62). -/
  | egcd (a b q r t0 t1 : BitVec 10)
  deriving DecidableEq, Repr

/-- The working registers of the command unit (10_state.md R29). The host never reads them and none survives
a command. -/
structure Working where
  r   : BitVec 16
  p   : BitVec 16
  i   : BitVec 3
  acc : BitVec 8
  b   : BitVec 8
  e   : BitVec 32
  u   : BitVec 9
  v   : BitVec 9
  g1  : BitVec 8
  g2  : BitVec 8
  deriving DecidableEq, Repr

/-- The width of a host access (20_memory.md R34). -/
inductive Width where
  | w8
  | w16
  | w32
  | w64
  | burst
  deriving DecidableEq, Repr

/-- A host access (20_memory.md R32). The data of a write of another width than 32 bits is never used, since
such an access is a bus error (log entry 19). -/
inductive Access where
  | read (width : Width) (off : Offset)
  | write (width : Width) (off : Offset) (data : Word)
  deriving DecidableEq, Repr

/-- What reaches the core from outside. -/
inductive Input where
  /-- A host access (10_state.md R13). -/
  | access (a : Access)
  /-- The platform's reset input, between commands (70_reset_and_hazards.md R113). -/
  | reset
  /-- The reset input while the command of word `w` runs (70_reset_and_hazards.md R113; log entry 10). -/
  | resetDuring (w : Word)
  deriving DecidableEq, Repr

/-- Which rule makes an access a bus error; the spec has one bus error, the cause is the model's label
(log entry 13). -/
inductive BusCause where
  /-- Another width than 32 bits (20_memory.md R34). -/
  | width
  /-- An offset that is no multiple of 4 (20_memory.md R35). -/
  | misaligned
  /-- A reserved offset (20_memory.md R36). -/
  | reserved
  deriving DecidableEq, Repr

/-- What the last access gave the host. -/
inductive Answer where
  /-- No access has been answered. -/
  | none
  /-- A write completed. -/
  | written
  /-- A read completed with this word. -/
  | data (v : Word)
  /-- The interconnect reported a bus error (20_memory.md R36). -/
  | busError (c : BusCause)
  deriving DecidableEq, Repr

/-- Why the machine stops with a fault. -/
inductive Fault where
  /-- Raised by a host access of an illegal width, alignment or offset (20_memory.md R34, R35, R36). Safe: no
  state changes, and `afterBusError` is the state the host goes on from (log entry 3). -/
  | busError (c : BusCause)
  /-- Raised by INV and DIV when the Euclid loop would never end, which needs CFG.POLY = 0 and so is
  ruled out by 10_state.md R25. Safe: the hardware would not end either (log entry 11). -/
  | commandNeverCompletes
  deriving DecidableEq, Repr

/-- Why a step is refused. -/
inductive Refusal where
  /-- Raised by an arm of exec without a meaning. Safe: nothing is claimed of the command. -/
  | notModelled (mnemonic : String)
  deriving DecidableEq, Repr

/-- The state of the core. The fields from `pending` on are the model's own (log entries 1 and 4). -/
structure State where
  /-- Register A (10_state.md R15). -/
  a       : BitVec 8
  /-- Register B (10_state.md R16). -/
  b       : BitVec 8
  /-- Register X (10_state.md R17). -/
  x       : BitVec 16
  /-- Register E (10_state.md R18). -/
  e       : BitVec 32
  /-- Register RES (10_state.md R19). -/
  res     : BitVec 32
  /-- Field STATUS.ERR (10_state.md R23). -/
  err     : ErrField
  /-- Register CFG (10_state.md R24). -/
  cfg     : FieldCfg
  /-- TRACEBUF[0 .. TRACE_COUNT-1]; TRACE_COUNT is its length (10_state.md R26, R27; log entry 6). -/
  trace   : List StepRecord
  /-- A command is running (10_state.md R29). -/
  busy    : Bool
  /-- CMD.T of the running command (10_state.md R29). -/
  tracing : Bool
  /-- The working registers (10_state.md R29). -/
  work    : Working
  /-- MODEL: the inputs that wait, oldest first. -/
  pending : List Input
  /-- MODEL: what the last access gave the host. -/
  answer  : Answer
  /-- MODEL: how many free values have been drawn. -/
  draws   : Nat
  deriving DecidableEq, Repr

/-- CFG after reset: (8, 0x11B) (10_state.md R31). -/
def FieldCfg.reset : FieldCfg := { m := 8, poly := 0x11B }

/-- The working registers after reset. DESIGN CHOICE: the spec leaves them unspecified (log entry 5). -/
def Working.reset : Working :=
  { r := 0, p := 0, i := 0, acc := 0, b := 0, e := 0, u := 0, v := 0, g1 := 0, g2 := 0 }

/-- The state after reset (10_state.md R31, 70_reset_and_hazards.md R113). -/
def State.reset : State :=
  { a := 0, b := 0, x := 0, e := 0, res := 0, err := .clear, cfg := FieldCfg.reset, trace := [],
    busy := false, tracing := false, work := Working.reset, pending := [], answer := .none, draws := 0 }

end Sys2Proof.Machine
end

