-- ==== Sys2Proof/Machine/Poly.lean ====
section
/-! DEFINITION. Polynomials over GF(2) as natural numbers: bit i is the coefficient of x^i (00_scope.md R6).
The datapath works on unbounded numbers, as the spec's pseudocode does (00_scope.md R8). -/

namespace Sys2Proof.Machine

/-- The degree: the index of the highest set bit, -1 for 0 (41_primitives.md R70). -/
def deg (p : Nat) : Int := if p = 0 then -1 else (p.log2 : Int)

/-- Keep the bits m-1..0 (41_primitives.md R71). -/
def maskBits (m v : Nat) : Nat := v &&& (2 ^ m - 1)

/-- XOR of the copies of `a` shifted by the set bits of `b` below `n`. -/
def clmulBits (a b : Nat) : Nat → Nat
  | 0 => 0
  | n + 1 => clmulBits a b n ^^^ (if b.testBit n then a <<< n else 0)

/-- The product of two polynomials over GF(2), not reduced (00_scope.md R9). -/
def clmul (a b : Nat) : Nat := clmulBits a b (b.log2 + 1)

/-- Cancel the leading term of `r` by a shifted copy of `d` while its degree allows it. -/
def polyModLoop (d : Nat) : Nat → Nat → Nat
  | 0, r => r
  | fuel + 1, r => if deg r < deg d then r else polyModLoop d fuel (r ^^^ (d <<< (deg r - deg d).toNat))

/-- The remainder of `x` by `d`, for d other than 0. -/
def polyMod (x d : Nat) : Nat := polyModLoop d (x.log2 + 1) x

/-- `x` and `y` differ by a multiple of `d`. -/
def congruent (x y d : Nat) : Prop := ∃ q, x = y ^^^ clmul q d

/-- No polynomial of degree 1 to deg p - 1 divides `p`, and `p` is no constant (00_scope.md R10,
93_implementation_defined.md section 3). -/
def irreducible (p : Nat) : Bool :=
  2 ≤ p && (List.range (2 ^ p.log2)).all fun d => d < 2 || polyMod p d != 0

/-- No polynomial of degree 1 or more divides both `a` and `p`: gcd(a, p) = 1, for p other than 0. -/
def coprime (a p : Nat) : Bool :=
  (List.range (2 ^ (p.log2 + 1))).all fun d => d < 2 || polyMod a d != 0 || polyMod p d != 0

end Sys2Proof.Machine
end

