-- ==== Sys2Proof/Machine/Ops.lean ====
section
/-! DEFINITION. The named operations on State, what a command's datapath answers, and the command frame
(60_exceptions.md R103), which every command runs in. -/

namespace Sys2Proof.Machine

abbrev StepOutcome := Host.Outcome State Fault Refusal

/-! ### Registers -/

/-- TRACE_COUNT: the number of records in the trace buffer (10_state.md R26). -/
def State.traceCount (s : State) : Nat := s.trace.length

def State.setA (s : State) (v : BitVec 8) : State := { s with a := v }
def State.setB (s : State) (v : BitVec 8) : State := { s with b := v }
def State.setX (s : State) (v : BitVec 16) : State := { s with x := v }
def State.setE (s : State) (v : BitVec 32) : State := { s with e := v }
def State.setRes (s : State) (v : BitVec 32) : State := { s with res := v }
def State.setErr (s : State) (v : ErrField) : State := { s with err := v }
def State.setCfg (s : State) (v : FieldCfg) : State := { s with cfg := v }
def State.setAnswer (s : State) (v : Answer) : State := { s with answer := v }
def State.setPending (s : State) (v : List Input) : State := { s with pending := v }

/-- The configuration rule: a legal degree, and a modulus of exactly that degree (10_state.md R25). -/
abbrev FieldCfg.valid (c : FieldCfg) : Prop :=
  Config.mMin ≤ c.m.toNat ∧ c.m.toNat ≤ Config.mMax ∧ deg c.poly.toNat = (c.m.toNat : Int)

/-! ### The step recorder -/

/-- Append a record, if the buffer has room (47_step_recorder.md R97, with `on` decided by the caller). -/
def State.emit (s : State) (rec : StepRecord) : State :=
  if s.traceCount < Config.traceDepth then { s with trace := s.trace ++ [rec] } else s

/-- Append records in execution order (47_step_recorder.md R98). -/
def State.emitAll (s : State) : List StepRecord → State
  | [] => s
  | rec :: rest => (s.emit rec).emitAll rest

/-! ### What a datapath function answers -/

inductive Result (α : Type) where
  | value (v : α)
  /-- `raise E` (60_exceptions.md R104). -/
  | error (e : CoreError)
  /-- The loop would never end (log entry 11). -/
  | neverEnds
  deriving DecidableEq, Repr

/-- The records a datapath call keeps, in execution order, and its result. -/
structure Run (α : Type) where
  records : List StepRecord
  result  : Result α
  deriving DecidableEq, Repr

def Run.pure {α : Type} (v : α) : Run α := { records := [], result := .value v }

/-- End the command with an error (60_exceptions.md R104). -/
def Run.raise {α : Type} (e : CoreError) : Run α := { records := [], result := .error e }

/-- Keep one record when the call's trace setting is on (47_step_recorder.md R97). -/
def Run.emit (on : Bool) (rec : StepRecord) : Run Unit :=
  { records := if on then [rec] else [], result := .value () }

/-- One call after another: an error ends both, and the records made before it stay
(60_exceptions.md R104, 47_step_recorder.md R101). -/
def Run.bind {α β : Type} (first : Run α) (next : α → Run β) : Run β :=
  match first with
  | { records := recs, result := .value v } =>
    { records := recs ++ (next v).records, result := (next v).result }
  | { records := recs, result := .error e } => { records := recs, result := .error e }
  | { records := recs, result := .neverEnds } => { records := recs, result := .neverEnds }

/-! ### The command frame -/

/-- What a command body writes when it succeeds: RES, or CFG (60_exceptions.md R103). -/
inductive Effect where
  | writeRes (v : BitVec 32)
  | writeCfg (c : FieldCfg)
  deriving DecidableEq, Repr

/-- The working registers after a command: FREE VALUES (10_state.md R29; log entry 4). -/
def freeWorking (n : Nat) : Working :=
  { r := (Config.freeBits n 0).setWidth 16, p := (Config.freeBits n 1).setWidth 16,
    i := (Config.freeBits n 2).setWidth 3, acc := (Config.freeBits n 3).setWidth 8,
    b := (Config.freeBits n 4).setWidth 8, e := Config.freeBits n 5,
    u := (Config.freeBits n 6).setWidth 9, v := (Config.freeBits n 7).setWidth 9,
    g1 := (Config.freeBits n 8).setWidth 8, g2 := (Config.freeBits n 9).setWidth 8 }

/-- TRACE_COUNT <- 0; tracing <- T; busy <- 1 (60_exceptions.md R103, 47_step_recorder.md R96). -/
def State.beginCommand (s : State) (t : Bool) : State :=
  { s with trace := [], tracing := t, busy := true }

/-- tracing <- 0; busy <- 0; nothing of the working registers survives (60_exceptions.md R103,
10_state.md R29). -/
def State.endCommand (s : State) : State :=
  { s with tracing := false, busy := false, work := freeWorking s.draws, draws := s.draws + 1 }

/-- Taking an error: STATUS.ERR gets its code and nothing else changes (60_exceptions.md R108). -/
def State.takeError (s : State) (e : CoreError) : State := s.setErr (.raised e)

/-- outcome = ok: STATUS.ERR <- 0 and the effect (60_exceptions.md R103). -/
def State.takeEffect (s : State) : Effect → State
  | .writeRes v => (s.setRes v).setErr .clear
  | .writeCfg c => (s.setCfg c).setErr .clear

/-- The end of the frame, for the body's outcome, with the body's records already in the trace
(60_exceptions.md R103). -/
def State.finish (s : State) : Result Effect → StepOutcome
  | .value eff => .next (s.takeEffect eff).endCommand
  | .error e => .next (s.takeError e).endCommand
  | .neverEnds => .fault .commandNeverCompletes

/-- The command frame of a legal command (60_exceptions.md R103). The body reads the state that the frame
has begun: the operand registers, CFG and `tracing`. -/
def frame (t : Bool) (body : State → Run Effect) (s : State) : StepOutcome :=
  ((s.beginCommand t).emitAll (body (s.beginCommand t)).records).finish (body (s.beginCommand t)).result

/-- An illegal command: STATUS.ERR <- 5 and nothing else changes (60_exceptions.md R103, 30_encoding.md R53). -/
def illegalCommand (s : State) : StepOutcome := .next (s.takeError .illegalCommand)

/-! ### Reset -/

/-- The platform reset: every piece of state of the core takes its reset value; the inputs that wait and the
model's counter are not the core's (70_reset_and_hazards.md R113; log entry 10). -/
def State.platformReset (s : State) : State :=
  { State.reset with pending := s.pending, answer := s.answer, draws := s.draws }

/-- How the platform answers an access held across a reset: a FREE VALUE (93 I13; log entry 10). -/
def freeHeldAnswer (n : Nat) : Answer :=
  match (Config.heldAnswer n).val with
  | 0 => .none
  | 1 => .written
  | _ => .busError .reserved

/-- A reset while a command runs: the command is abandoned, its CMD write is answered or dropped as the
platform decides (70_reset_and_hazards.md R113). -/
def State.resetDuringCommand (s : State) : State :=
  { s.platformReset with answer := freeHeldAnswer s.draws, draws := s.draws + 1 }

end Sys2Proof.Machine
end

