-- ==== Sys2Proof/Machine/Operands.lean ====
section
/-! DEFINITION. How a command takes its operands and how its result stands in RES (30_encoding.md R54, R55).
"raw" is the whole register value; "masked" keeps the bits M-1..0 (41_primitives.md R71). -/

namespace Sys2Proof.Machine

/-- CFG.M and CFG.POLY as numbers. -/
def FieldCfg.degree (c : FieldCfg) : Nat := c.m.toNat
def FieldCfg.modulus (c : FieldCfg) : Nat := c.poly.toNat

/-- `mask(v)` under a configuration (41_primitives.md R71). -/
def FieldCfg.mask (c : FieldCfg) (v : Nat) : Nat := maskBits c.degree v

/-- A raw: the degree operand of SETCFG and DEFCFG (30_encoding.md R54). -/
def State.rawA (s : State) : Nat := s.a.toNat

/-- X raw: DEG, RED and SETCFG (30_encoding.md R54). -/
def State.rawX (s : State) : Nat := s.x.toNat

/-- E as an unsigned integer: the exponent of POW (30_encoding.md R54). -/
def State.exponent (s : State) : Nat := s.e.toNat

/-- mask(A): ADD, MUL, POW, INV, DIV (30_encoding.md R54). -/
def State.maskedA (s : State) : Nat := s.cfg.mask s.a.toNat

/-- mask(B): ADD, MUL, DIV (30_encoding.md R54). -/
def State.maskedB (s : State) : Nat := s.cfg.mask s.b.toNat

/-- An element result, zero-extended (30_encoding.md R55). -/
def elementResult (v : Nat) : BitVec 32 := BitVec.ofNat 32 v

/-- The degree result of DEG, in two's complement (30_encoding.md R55). -/
def degreeResult (d : Int) : BitVec 32 := BitVec.ofInt 32 d

/-- A datapath run whose value goes to RES as an element. -/
def Run.toRes (run : Run Nat) : Run Effect := run.bind fun v => Run.pure (.writeRes (elementResult v))

end Sys2Proof.Machine
end

