-- ==== Sys2Proof/Machine/Configuration.lean ====
section
/-! DEFINITION. The default table and the configuration commands SETCFG and DEFCFG (10_state.md R28,
40_configuration.md R66 to R69). -/

namespace Sys2Proof.Machine

/-- The irreducible polynomials of degree m for the degrees whose default is OPEN
(93_implementation_defined.md section 3; log entry 8). -/
def irreducibles3 : List (BitVec 9) := [0x0B, 0x0D]
def irreducibles4 : List (BitVec 9) := [0x13, 0x19, 0x1F]
def irreducibles6 : List (BitVec 9) := [0x43, 0x49, 0x57, 0x5B, 0x61, 0x67, 0x6D, 0x73, 0x75]
def irreducibles7 : List (BitVec 9) :=
  [0x83, 0x89, 0x8F, 0x91, 0x9D, 0xA7, 0xAB, 0xB9, 0xBF, 0xC1, 0xCB, 0xD3, 0xD5, 0xE5, 0xEF, 0xF1, 0xF7, 0xFD]

/-- DEFTAB[m]: DEFAULT_POLY[m] for 2 to 8, 0 otherwise (10_state.md R28). DEFAULT_POLY[2] is forced, since
0x7 is the one irreducible polynomial of degree 2. -/
def deftab (m : Nat) : BitVec 9 :=
  match m with
  | 2 => 0x07
  | 3 => irreducibles3.getD Config.defaultPick3.val 0
  | 4 => irreducibles4.getD Config.defaultPick4.val 0
  | 5 => 0x25
  | 6 => irreducibles6.getD Config.defaultPick6.val 0
  | 7 => irreducibles7.getD Config.defaultPick7.val 0
  | 8 => 0x11B
  | _ => 0

/-- `m < 2 or m > 8` (40_configuration.md R66, R67). -/
abbrev badDegree (m : Nat) : Prop := m < Config.mMin ∨ Config.mMax < m

/-- The validation of SETCFG: the degree first, then the modulus (40_configuration.md R66). -/
def setcfgBody (s : State) : Run Effect :=
  if badDegree s.rawA then Run.raise .invalidFieldSize
  else if deg s.rawX ≠ (s.rawA : Int) then Run.raise .invalidModulus
  else Run.pure (.writeCfg { m := BitVec.ofNat 4 s.rawA, poly := BitVec.ofNat 9 s.rawX })

/-- The body of DEFCFG (40_configuration.md R67). -/
def defcfgBody (s : State) : Run Effect :=
  if badDegree s.rawA then Run.raise .invalidFieldSize
  else Run.pure (.writeCfg { m := BitVec.ofNat 4 s.rawA, poly := deftab s.rawA })

/-- SETCFG (40_configuration.md R66). -/
def execSetcfg (t : Bool) (s : State) : StepOutcome := frame t setcfgBody s

/-- DEFCFG (40_configuration.md R67). -/
def execDefcfg (t : Bool) (s : State) : StepOutcome := frame t defcfgBody s

end Sys2Proof.Machine
end

