-- ==== Sys2Proof/Machine/Records.lean ====
section
/-! DEFINITION. The 64-bit words of the Step records (30_encoding.md R56 to R62), and reading a record back from
its word. -/

namespace Sys2Proof.Machine

/-- The word of a record, its fields from bit 63 down (30_encoding.md R58 to R62). -/
def StepRecord.word : StepRecord → RecordWord
  | .mul i bBit aBefore aAfter pBefore pAfter =>
    (1 : BitVec 4) ++ (0 : BitVec 4) ++ pAfter ++ pBefore ++ aAfter ++ aBefore ++ (0 : BitVec 4)
      ++ BitVec.ofBool bBit ++ i
  | .reduce carry before after =>
    (2 : BitVec 4) ++ (0 : BitVec 20) ++ after ++ before ++ carry
  | .mod before after =>
    (3 : BitVec 4) ++ (0 : BitVec 28) ++ after ++ before
  | .exp bit baseBefore baseAfter accBefore accAfter =>
    (4 : BitVec 4) ++ (0 : BitVec 20) ++ accAfter ++ accBefore ++ baseAfter ++ baseBefore ++ (0 : BitVec 7)
      ++ BitVec.ofBool bit
  | .egcd a b q r t0 t1 =>
    (5 : BitVec 4) ++ t1 ++ t0 ++ r ++ q ++ b ++ a

/-- The variant a word names: bits 63:60 (30_encoding.md R56, R57). -/
def recordTag (w : RecordWord) : BitVec 4 := w.extractLsb' 60 4

/-- The record a word holds, if it is the word of one (30_encoding.md R57 to R62). -/
def recordOfWord (w : RecordWord) : Option StepRecord :=
  match (recordTag w).toNat with
  | 1 =>
    if w.extractLsb' 56 4 = 0 ∧ w.extractLsb' 4 4 = 0 then
      some (.mul (w.extractLsb' 0 3) (w.getLsbD 3) (w.extractLsb' 8 8) (w.extractLsb' 16 8)
        (w.extractLsb' 24 16) (w.extractLsb' 40 16))
    else none
  | 2 =>
    if w.extractLsb' 40 20 = 0 then
      some (.reduce (w.extractLsb' 0 8) (w.extractLsb' 8 16) (w.extractLsb' 24 16))
    else none
  | 3 =>
    if w.extractLsb' 32 28 = 0 then some (.mod (w.extractLsb' 0 16) (w.extractLsb' 16 16)) else none
  | 4 =>
    if w.extractLsb' 40 20 = 0 ∧ w.extractLsb' 1 7 = 0 then
      some (.exp (w.getLsbD 0) (w.extractLsb' 8 8) (w.extractLsb' 16 8) (w.extractLsb' 24 8)
        (w.extractLsb' 32 8))
    else none
  | 5 =>
    some (.egcd (w.extractLsb' 0 10) (w.extractLsb' 10 10) (w.extractLsb' 20 10) (w.extractLsb' 30 10)
      (w.extractLsb' 40 10) (w.extractLsb' 50 10))
  | _ => none

/-- A Mul record of numbers (30_encoding.md R58). -/
def mulRecord (i : Nat) (bBit : Bool) (a pBefore pAfter : Nat) : StepRecord :=
  .mul (BitVec.ofNat 3 i) bBit (BitVec.ofNat 8 a) (BitVec.ofNat 8 a) (BitVec.ofNat 16 pBefore)
    (BitVec.ofNat 16 pAfter)

/-- A Reduce record of numbers (30_encoding.md R59). -/
def reduceRecord (shift before after : Nat) : StepRecord :=
  .reduce (BitVec.ofNat 8 shift) (BitVec.ofNat 16 before) (BitVec.ofNat 16 after)

/-- A Mod record of numbers (30_encoding.md R60). -/
def modRecord (before after : Nat) : StepRecord :=
  .mod (BitVec.ofNat 16 before) (BitVec.ofNat 16 after)

/-- An Exp record of numbers (30_encoding.md R61). -/
def expRecord (bit : Bool) (baseBefore baseAfter accBefore accAfter : Nat) : StepRecord :=
  .exp bit (BitVec.ofNat 8 baseBefore) (BitVec.ofNat 8 baseAfter) (BitVec.ofNat 8 accBefore)
    (BitVec.ofNat 8 accAfter)

/-- An Egcd record of numbers (30_encoding.md R62). -/
def egcdRecord (a b q r t0 t1 : Nat) : StepRecord :=
  .egcd (BitVec.ofNat 10 a) (BitVec.ofNat 10 b) (BitVec.ofNat 10 q) (BitVec.ofNat 10 r)
    (BitVec.ofNat 10 t0) (BitVec.ofNat 10 t1)

end Sys2Proof.Machine
end

