-- ==== Sys2Proof/Machine/Reducer.lean ====
section
/-! DEFINITION. The reducer and RED (42_reducer.md R76 to R79). -/

namespace Sys2Proof.Machine

/-- The loop of the reducer: while deg(r) ≥ deg(P), r <- r ^ (P << shift), one Reduce record each; its records
and the final r (42_reducer.md R76). -/
def reduceLoop (on : Bool) (P : Nat) : Nat → Nat → List StepRecord × Nat
  | 0, r => ([], r)
  | fuel + 1, r =>
    if deg r < deg P then ([], r)
    else
      let shift := (deg r - deg P).toNat
      let after := r ^^^ (P <<< shift)
      let rest := reduceLoop on P fuel after
      ((if on then [reduceRecord shift r after] else []) ++ rest.1, rest.2)

/-- A reducer input has at most 16 bits and every iteration lowers the degree, so the loop ends within 16
iterations (42_reducer.md R76; log entry 14). -/
def reducerFuel : Nat := Config.xw

/-- `reduce(x)` (42_reducer.md R76), with the guard of R77. -/
def reduce (c : FieldCfg) (on : Bool) (x : Nat) : Run Nat :=
  if deg c.modulus ≠ (c.degree : Int) then Run.raise .invalidModulus
  else
    let looped := reduceLoop on c.modulus reducerFuel x
    let result := c.mask looped.2
    { records := looped.1 ++ (if on then [modRecord x result] else []), result := .value result }

def redBody (s : State) : Run Effect := (reduce s.cfg s.tracing s.rawX).toRes

/-- RED (42_reducer.md R78). -/
def execRed (t : Bool) (s : State) : StepOutcome := frame t redBody s

end Sys2Proof.Machine
end

