-- ==== Sys2Proof/Machine/Inverter.lean ====
section
/-! DEFINITION. The inverter and INV (45_inverter.md R89 to R92). -/

namespace Sys2Proof.Machine

/-- The loop variables of the inverter (10_state.md R29, 45_inverter.md R89). -/
structure Euclid where
  u  : Nat
  v  : Nat
  g1 : Nat
  g2 : Nat
  deriving DecidableEq, Repr

/-- If deg(u) < deg(v), swap (u, g1) with (v, g2) (45_inverter.md R89). -/
def Euclid.ordered (x : Euclid) : Euclid :=
  if deg x.u < deg x.v then { u := x.v, v := x.u, g1 := x.g2, g2 := x.g1 } else x

/-- deg(u) - deg(v), for an ordered pair (45_inverter.md R89). -/
def Euclid.shift (x : Euclid) : Nat := (deg x.u - deg x.v).toNat

/-- The update of an ordered pair: u <- u ^ (v << shift), g1 <- g1 ^ (g2 << shift) (45_inverter.md R89). -/
def Euclid.update (x : Euclid) : Euclid :=
  { x with u := x.u ^^^ (x.v <<< x.shift), g1 := x.g1 ^^^ (x.g2 <<< x.shift) }

/-- The record of an update: "before" is after the swap and before the update (45_inverter.md R89, D16). -/
def Euclid.record (x : Euclid) : StepRecord :=
  egcdRecord x.u x.v (1 <<< x.shift) x.update.u x.g1 x.g2

/-- The loop of the inverter; its value is the final g1. An update that leaves u = 0 raises NotInvertible after
its record (45_inverter.md R89, D17). -/
def invertLoop (on : Bool) : Nat → Euclid → Run Nat
  | 0, _ => { records := [], result := .neverEnds }
  | fuel + 1, x =>
    if x.u = 1 then Run.pure x.g1
    else
      (Run.emit on x.ordered.record).bind fun _ =>
        if x.ordered.update.u = 0 then Run.raise .notInvertible
        else invertLoop on fuel x.ordered.update

/-- deg(u) + deg(v) decreases in every iteration unless v = 0, so 32 iterations are enough for every modulus
of 9 bits but 0 (45_inverter.md R90; log entries 11 and 14). -/
def inverterFuel : Nat := 32

/-- `invert(a)` (45_inverter.md R89). `nested` is TRACE_NESTED: whether the last reduction keeps its record. -/
def invert (c : FieldCfg) (nested on : Bool) (a : Nat) : Run Nat :=
  if a = 0 then Run.raise .noInverse
  else
    (invertLoop on inverterFuel { u := a, v := c.modulus, g1 := 1, g2 := 0 }).bind fun g1 =>
      reduce c (on && nested) g1

def invBody (s : State) : Run Effect := (invert s.cfg Config.traceNested s.tracing s.maskedA).toRes

/-- INV (45_inverter.md R91). -/
def execInv (t : Bool) (s : State) : StepOutcome := frame t invBody s

end Sys2Proof.Machine
end

