-- ==== Sys2Proof/Machine/Multiplier.lean ====
section
/-! DEFINITION. The multiplier and MUL (43_multiplier.md R80 to R83): the full product, then one reduction. -/

namespace Sys2Proof.Machine

/-- The raw product after the first n bit-iterations: XOR of `a << i` for the set bits i of b
(43_multiplier.md R80). -/
def rawProduct (a b : Nat) : Nat → Nat
  | 0 => 0
  | n + 1 => if b.testBit n then rawProduct a b n ^^^ (a <<< n) else rawProduct a b n

/-- The Mul records of the first n bit-iterations, in order (43_multiplier.md R80). -/
def mulRecords (a b : Nat) : Nat → List StepRecord
  | 0 => []
  | n + 1 =>
    mulRecords a b n ++ [mulRecord n (b.testBit n) a (rawProduct a b n) (rawProduct a b (n + 1))]

/-- `multiply(a, b)` (43_multiplier.md R80). The reducer inherits the trace setting. -/
def multiply (c : FieldCfg) (on : Bool) (a b : Nat) : Run Nat :=
  let reduced := reduce c on (rawProduct a b c.degree)
  { records := (if on then mulRecords a b c.degree else []) ++ reduced.records, result := reduced.result }

def mulBody (s : State) : Run Effect := (multiply s.cfg s.tracing s.maskedA s.maskedB).toRes

/-- MUL (43_multiplier.md R82). -/
def execMul (t : Bool) (s : State) : StepOutcome := frame t mulBody s

end Sys2Proof.Machine
end

