-- ==== Sys2Proof/Machine/Division.lean ====
section
/-! DEFINITION. Division and DIV (46_division.md R93 to R95): the inverse of the divisor, then the product. -/

namespace Sys2Proof.Machine

/-- `divide(a, b)` (46_division.md R93). -/
def divide (c : FieldCfg) (nested on : Bool) (a b : Nat) : Run Nat :=
  (invert c nested on b).bind fun y => multiply c on a y

def divBody (s : State) : Run Effect :=
  (divide s.cfg Config.traceNested s.tracing s.maskedA s.maskedB).toRes

/-- DIV (46_division.md R94). -/
def execDiv (t : Bool) (s : State) : StepOutcome := frame t divBody s

end Sys2Proof.Machine
end

