-- ==== Sys2Proof/Machine/Exponentiator.lean ====
section
/-! DEFINITION. The exponentiator and POW (44_exponentiator.md R84 to R88). -/

namespace Sys2Proof.Machine

/-- The loop of the exponentiator on (e, b, acc): multiply when the low bit of e is set, always square, one Exp
record an iteration (44_exponentiator.md R84). `nested` is TRACE_NESTED: whether the two multiplications
keep their own records (R85). -/
def powerLoop (c : FieldCfg) (nested on : Bool) : Nat → Nat → Nat → Nat → Run Nat
  | 0, _, _, acc => Run.pure acc
  | fuel + 1, e, b, acc =>
    if e = 0 then Run.pure acc
    else
      let bit := e.testBit 0
      (if bit then multiply c (on && nested) acc b else Run.pure acc).bind fun acc' =>
        (multiply c (on && nested) b b).bind fun b' =>
          (Run.emit on (expRecord bit b b' acc acc')).bind fun _ =>
            powerLoop c nested on fuel (e >>> 1) b' acc'

/-- An exponent has 32 bits and each iteration takes one, so the loop ends within 32 iterations
(44_exponentiator.md R84; log entry 14). -/
def powerFuel : Nat := Config.ew

/-- `power(base, e)` (44_exponentiator.md R84). -/
def power (c : FieldCfg) (nested on : Bool) (base e : Nat) : Run Nat :=
  powerLoop c nested on powerFuel e base 1

def powBody (s : State) : Run Effect :=
  (power s.cfg Config.traceNested s.tracing s.maskedA s.exponent).toRes

/-- POW (44_exponentiator.md R86). -/
def execPow (t : Bool) (s : State) : StepOutcome := frame t powBody s

end Sys2Proof.Machine
end

