-- ==== Sys2Proof/Machine/Primitives.lean ====
section
/-! DEFINITION. DEG and ADD (41_primitives.md R72 to R75). -/

namespace Sys2Proof.Machine

/-- `add(a, b)`: XOR, masked to m bits (41_primitives.md R72). -/
def fieldAdd (c : FieldCfg) (a b : Nat) : Nat := c.mask (a ^^^ b)

def degBody (s : State) : Run Effect := Run.pure (.writeRes (degreeResult (deg s.rawX)))

def addBody (s : State) : Run Effect :=
  Run.pure (.writeRes (elementResult (fieldAdd s.cfg s.maskedA s.maskedB)))

/-- DEG (41_primitives.md R73). -/
def execDeg (t : Bool) (s : State) : StepOutcome := frame t degBody s

/-- ADD (41_primitives.md R74). -/
def execAdd (t : Bool) (s : State) : StepOutcome := frame t addBody s

end Sys2Proof.Machine
end

