-- ==== Sys2Proof/Machine/Dispatch.lean ====
section
/-! DEFINITION. One arm per command, in the order of spec/opcode_table.json. -/

namespace Sys2Proof.Machine

def exec (i : Instr) (s : State) : Host.Outcome State Fault Refusal :=
  match i with
  | .setcfg t => Sys2Proof.Machine.execSetcfg t s
  | .defcfg t => Sys2Proof.Machine.execDefcfg t s
  | .deg t => Sys2Proof.Machine.execDeg t s
  | .add t => Sys2Proof.Machine.execAdd t s
  | .red t => Sys2Proof.Machine.execRed t s
  | .mul t => Sys2Proof.Machine.execMul t s
  | .pow t => Sys2Proof.Machine.execPow t s
  | .inv t => Sys2Proof.Machine.execInv t s
  | .div t => Sys2Proof.Machine.execDiv t s

end Sys2Proof.Machine
end

