-- ==== Sys2Proof/Machine/Flags.lean ====
section
/-! DEFINITION. The status field: the codes of STATUS.ERR and the words that STATUS, CFG and TRACE_COUNT read as
(10_state.md R23, R24, R26, 60_exceptions.md R105). The core has no other flag (10_state.md R21). -/

namespace Sys2Proof.Machine

/-- The code of an error (60_exceptions.md R105). -/
def CoreError.code : CoreError → BitVec 3
  | .invalidModulus => 1
  | .noInverse => 2
  | .notInvertible => 3
  | .invalidFieldSize => 4
  | .illegalCommand => 5

/-- The value of the field STATUS.ERR (10_state.md R23). -/
def ErrField.code : ErrField → BitVec 3
  | .clear => 0
  | .raised e => e.code

/-- STATUS: bits 2:0 ERR, the rest 0 (10_state.md R23). -/
def State.statusWord (s : State) : Word := s.err.code.setWidth 32

/-- CFG: bits 3:0 M, bits 16:8 POLY, the rest 0 (10_state.md R24). -/
def FieldCfg.word (c : FieldCfg) : Word := (0 : BitVec 15) ++ c.poly ++ (0 : BitVec 4) ++ c.m

/-- TRACE_COUNT: bits 15:0 the count, the rest 0 (10_state.md R26). -/
def State.traceCountWord (s : State) : Word := (BitVec.ofNat 16 s.traceCount).setWidth 32

end Sys2Proof.Machine
end

