-- ==== Sys2Proof/Machine/Window.lean ====
section
/-! DEFINITION. The register window: the register map, the bus rules, and reading and writing one register
(20_memory.md R32 to R42). -/

namespace Sys2Proof.Machine

/-- The registers of the map (20_memory.md R33). -/
inductive Reg where
  | cmd
  | status
  | cfg
  | a
  | b
  | x
  | e
  | res
  | traceCount
  | deftab (m : Nat)
  | traceLo (k : Nat)
  | traceHi (k : Nat)
  deriving DecidableEq, Repr

/-- The register at a 4-byte-aligned offset; none where the offset is reserved (20_memory.md R33, R36). -/
def regAt (off : Nat) : Option Reg :=
  if off = 0x0000 then some .cmd
  else if off = 0x0004 then some .status
  else if off = 0x0008 then some .cfg
  else if off = 0x000C then some .a
  else if off = 0x0010 then some .b
  else if off = 0x0014 then some .x
  else if off = 0x0018 then some .e
  else if off = 0x001C then some .res
  else if off = 0x0020 then some .traceCount
  else if 0x0040 ≤ off ∧ off ≤ 0x007C then some (.deftab ((off - 0x0040) / 4))
  else if 0x8000 ≤ off ∧ off < 0xC000 then
    if off % 8 = 0 then some (.traceLo ((off - 0x8000) / 8)) else some (.traceHi ((off - 0x8004) / 8))
  else none

/-- The offset of a register (20_memory.md R33). -/
def Reg.offset : Reg → Nat
  | .cmd => 0x0000
  | .status => 0x0004
  | .cfg => 0x0008
  | .a => 0x000C
  | .b => 0x0010
  | .x => 0x0014
  | .e => 0x0018
  | .res => 0x001C
  | .traceCount => 0x0020
  | .deftab m => 0x0040 + 4 * m
  | .traceLo k => 0x8000 + 8 * k
  | .traceHi k => 0x8004 + 8 * k

/-- The registers that exist: the table has 16 entries, the trace window TRACE_DEPTH (20_memory.md R33). -/
def Reg.wf : Reg → Bool
  | .cmd => true
  | .status => true
  | .cfg => true
  | .a => true
  | .b => true
  | .x => true
  | .e => true
  | .res => true
  | .traceCount => true
  | .deftab m => m < 16
  | .traceLo k => k < Config.traceDepth
  | .traceHi k => k < Config.traceDepth

/-- The byte address of byte lane j of the register at an offset (20_memory.md R42). -/
def laneAddress (off : Offset) (j : Nat) : Nat := Config.coreBase + off.toNat + j

/-- Where an access goes: a register, or a bus error. -/
inductive Target where
  | reg (r : Reg)
  | busError (c : BusCause)
  deriving DecidableEq, Repr

def Access.width : Access → Width
  | .read w _ => w
  | .write w _ _ => w

def Access.off : Access → Offset
  | .read _ off => off
  | .write _ off _ => off

/-- The bus rules: the width, then the alignment, then the map (20_memory.md R34, R35, R36). -/
def Access.target (acc : Access) : Target :=
  if acc.width ≠ .w32 then .busError .width
  else if acc.off.toNat % 4 ≠ 0 then .busError .misaligned
  else
    match regAt acc.off.toNat with
    | some r => .reg r
    | none => .busError .reserved

/-- The word of record k, 0 where there is no record (20_memory.md R41). -/
def State.recordWord (s : State) (k : Nat) : RecordWord :=
  match s.trace[k]? with
  | some rec => rec.word
  | none => 0

/-- What a read of a register returns (20_memory.md R33, R38, R41, 10_state.md R15 to R28). -/
def State.readReg (s : State) : Reg → Word
  | .cmd => 0
  | .status => s.statusWord
  | .cfg => s.cfg.word
  | .a => s.a.setWidth 32
  | .b => s.b.setWidth 32
  | .x => s.x.setWidth 32
  | .e => s.e
  | .res => s.res
  | .traceCount => s.traceCountWord
  | .deftab m => (deftab m).setWidth 32
  | .traceLo k => (s.recordWord k).extractLsb' 0 32
  | .traceHi k => (s.recordWord k).extractLsb' 32 32

/-- What a write of a register other than CMD does: A, B, X and E store the bits of their width, the
read-only registers nothing (20_memory.md R37, R38, R39). CMD itself holds no state (10_state.md R22). -/
def State.writeReg (s : State) (v : Word) : Reg → State
  | .cmd => s
  | .status => s
  | .cfg => s
  | .a => s.setA (v.setWidth 8)
  | .b => s.setB (v.setWidth 8)
  | .x => s.setX (v.setWidth 16)
  | .e => s.setE v
  | .res => s
  | .traceCount => s
  | .deftab _ => s
  | .traceLo _ => s
  | .traceHi _ => s

/-- What a 32-bit read of an offset gives; none where it is a bus error. The model's read of the window. -/
def State.readWindow (s : State) (off : Offset) : Option Word :=
  match (Access.read .w32 off).target with
  | .reg r => some (s.readReg r)
  | .busError _ => none

end Sys2Proof.Machine
end

