-- ==== Sys2Proof/Machine/Port.lean ====
section
/-! DEFINITION. Performing what reaches the core: host accesses, command words and the reset input
(20_memory.md R43 to R45, 70_reset_and_hazards.md R113). -/

namespace Sys2Proof.Machine

/-- A write of word w to CMD runs the command w (20_memory.md R43, 60_exceptions.md R103). -/
def runCommandWord (w : Word) (s : State) : StepOutcome :=
  match decodeWord w with
  | .command i => exec i s
  | .illegal _ => illegalCommand s

/-- Perform one host access (20_memory.md R34 to R43). -/
def performAccess (acc : Access) (s : State) : StepOutcome :=
  match acc.target with
  | .busError c => .fault (.busError c)
  | .reg r =>
    match acc with
    | .read _ _ => .next (s.setAnswer (.data (s.readReg r)))
    | .write _ _ v =>
      if r = .cmd then runCommandWord v (s.setAnswer .written)
      else .next ((s.setAnswer .written).writeReg v r)

/-- Perform the oldest waiting input. With nothing waiting the core is idle and does nothing
(70_reset_and_hazards.md R119); while a command runs every access is held (20_memory.md R44; log entry 18),
and a reset is not. -/
def performNext (s : State) : StepOutcome :=
  match s.pending with
  | [] => .next s
  | .access acc :: rest => if s.busy then .next s else performAccess acc (s.setPending rest)
  | .reset :: rest => .next (s.setPending rest).platformReset
  | .resetDuring _ :: rest => .next (s.setPending rest).resetDuringCommand

/-- The state the host goes on from after a bus error: the access is answered with the error and nothing
else changes (20_memory.md R34, R35, R36; log entry 3). -/
def afterBusError (c : BusCause) (s : State) : State :=
  (s.setPending s.pending.tail).setAnswer (.busError c)

/-- Inputs that reach the core later: they wait behind the others (20_memory.md R45). -/
def offer (inputs : List Input) (s : State) : State := s.setPending (s.pending ++ inputs)

/-- The host's write of a command word to CMD (30_encoding.md R64). -/
def cmdWrite (w : Word) : Input := .access (.write .w32 0x0000 w)

/-- The state in which `exec` runs a command word that the head of the queue writes: the word is taken from
the queue and its write is answered. -/
def accepted (s : State) : State := (s.setPending s.pending.tail).setAnswer .written

/-- Put a command word where the next step takes its input, with no command running. -/
def placeCommand (w : Word) (s : State) : State :=
  { s with pending := cmdWrite w :: s.pending, busy := false }

end Sys2Proof.Machine
end

