-- ==== Sys2Proof/Machine/Step.lean ====
section
/-! DEFINITION. One step of the machine, and where a command word is placed for it. -/

namespace Sys2Proof.Machine

/-- One step: the oldest waiting input is performed, a command to its completion (20_memory.md R44, R45). -/
def step (s : State) : Host.Outcome State Fault Refusal := performNext s

/-- The state whose next step runs the command word of a table row: the host's write of it to CMD stands at
the head of the queue, and no command runs (log entry 2). -/
def State.withFetchWord (s : State) (nbits w : Nat) : State := placeCommand (tableWord nbits w) s

end Sys2Proof.Machine
end

