-- ==== Sys2Proof/Machine/Program.lean ====
section
/-! DEFINITION. The host-program syntax and its pseudo-instructions, expanded into accesses
(30_encoding.md R64, R65). -/

namespace Sys2Proof.Machine

/-- The registers that `wr` may name (30_encoding.md R64). -/
inductive OperandReg where
  | a
  | b
  | x
  | e
  deriving DecidableEq, Repr

def OperandReg.reg : OperandReg → Reg
  | .a => .a
  | .b => .b
  | .x => .x
  | .e => .e

/-- One line of a host program (30_encoding.md R64), or a pseudo-instruction (R65). -/
inductive AsmLine where
  | wr (r : OperandReg) (imm : Word)
  | rd (r : Reg)
  | cmd (i : Instr)
  | cmdRaw (w : Word)
  | sub (t : Bool)
  | cfg (m poly : Word)
  | dcfg (m : Word)
  | sqr (t : Bool) (a : Word)
  | rdt (k : Nat)
  deriving DecidableEq, Repr

/-- The 32-bit write and read of a register (30_encoding.md R64). -/
def writeOf (r : Reg) (v : Word) : Access := .write .w32 (BitVec.ofNat 16 r.offset) v
def readOf (r : Reg) : Access := .read .w32 (BitVec.ofNat 16 r.offset)

/-- The accesses of a line (30_encoding.md R64, R65). -/
def AsmLine.expand : AsmLine → List Access
  | .wr r imm => [writeOf r.reg imm]
  | .rd r => [readOf r]
  | .cmd i => [writeOf .cmd (encode i)]
  | .cmdRaw w => [writeOf .cmd w]
  | .sub t => [writeOf .cmd (encode (.add t))]
  | .cfg m poly => [writeOf .a m, writeOf .x poly, writeOf .cmd (encode (.setcfg false))]
  | .dcfg m => [writeOf .a m, writeOf .cmd (encode (.defcfg false))]
  | .sqr t a => [writeOf .a a, writeOf .b a, writeOf .cmd (encode (.mul t))]
  | .rdt k => [readOf (.traceLo k), readOf (.traceHi k)]

/-- The inputs a host program offers, in program order (20_memory.md R45). -/
def programInputs (lines : List AsmLine) : List Input :=
  (lines.flatMap AsmLine.expand).map Input.access

end Sys2Proof.Machine
end

