-- ==== Sys2Proof/Safety.lean ====
section
/-! DEFINITION. What a run of the core can reach, and the invariant of every state the host can observe. -/

namespace Sys2Proof.Machine

/-- The states that can be reached: from reset, inputs of any kind and order may be offered (any masters, any
schedule: 20_memory.md R46), the core steps, and the host goes on after a bus error. -/
inductive Reachable : State → Prop where
  | reset : Reachable State.reset
  | offered (s : State) (inputs : List Input) : Reachable s → Reachable (offer inputs s)
  | stepped (s t : State) : Reachable s → step s = .next t → Reachable t
  | resumed (s : State) (c : BusCause) : Reachable s → step s = .fault (.busError c) →
      Reachable (afterBusError c s)

/-- What holds wherever the host can observe the core: CFG is valid (10_state.md R25), no command runs
(20_memory.md R44), and the trace has room for its records (10_state.md R26). -/
abbrev State.Inv (s : State) : Prop :=
  s.cfg.valid ∧ s.busy = false ∧ s.tracing = false ∧ s.traceCount ≤ Config.traceDepth

/-- A safe step: the machine goes on, or the host made an illegal access. -/
def SafeOutcome (o : StepOutcome) : Prop :=
  (∃ t, o = .next t) ∨ ∃ c, o = .fault (.busError c)

/-- The state after a legal command apart from its result: the error field and the trace as given, no command
running, the working registers free (log entry 4), and EVERYTHING ELSE as before the command. -/
def commandDone (s : State) (err : ErrField) (recs : List StepRecord) : State :=
  { s with err := err, trace := recs, busy := false, tracing := false,
           work := freeWorking s.draws, draws := s.draws + 1 }

/-- The same with a result in RES. -/
def resultDone (s : State) (recs : List StepRecord) (v : Nat) : State :=
  { commandDone s .clear recs with res := BitVec.ofNat 32 v }

/-- The state after a step that goes on, for tests. -/
def nextOf : StepOutcome → Option State
  | .next t => some t
  | .fault _ => none
  | .refused _ => none

/-- The fault of a step that stops, for tests. -/
def faultOf : StepOutcome → Option Fault
  | .next _ => none
  | .fault f => some f
  | .refused _ => none

end Sys2Proof.Machine
end

