-- ==== Sys2Proof/Certificates/Slice0/Obligations.lean ====
section
/-! DEFINITION. The statements for the provers, and the small vocabulary they use. -/

namespace Sys2Proof.Machine

/-! ### Vocabulary -/

/-- The value that the multiplier gives. -/
def product (c : FieldCfg) (a b : Nat) : Nat :=
  match (multiply c false a b).result with
  | .value v => v
  | .error _ => 0
  | .neverEnds => 0

/-- The n-fold product of `a` with itself. -/
def iteratedProduct (c : FieldCfg) (a : Nat) : Nat → Nat
  | 0 => 1
  | n + 1 => product c (iteratedProduct c a n) a

/-- The passes (shift, before, after) of a reduction from one value to the last; every pass lowers the degree
(42_reducer.md R76). -/
def ReduceSteps (P : Nat) : Nat → List (Nat × Nat × Nat) → Nat → Prop
  | r, [], last => last = r ∧ deg r < deg P
  | r, (shift, before, after) :: rest, last =>
    deg P ≤ deg r ∧ (shift : Int) = deg r - deg P ∧ before = r ∧ after = r ^^^ (P <<< shift) ∧
      deg after < deg r ∧ ReduceSteps P after rest last

/-- The records of a reduction of x to r: one Reduce record a pass, then the Mod record (42_reducer.md R76). -/
def ReduceTrace (P x : Nat) (recs : List StepRecord) (r : Nat) : Prop :=
  ∃ steps, ReduceSteps P x steps r ∧
    recs = steps.map (fun st => reduceRecord st.1 st.2.1 st.2.2) ++ [modRecord x r]

/-- The Mul records of a multiplication, i = 0 to m-1 (43_multiplier.md R80): the partial products are the
carry-less products with the low bits of b. -/
def mulTrace (m a b : Nat) : List StepRecord :=
  (List.range m).map fun i => mulRecord i (b.testBit i) a (clmulBits a b i) (clmulBits a b (i + 1))

/-- The running square after k iterations of the exponentiator (44_exponentiator.md R84). -/
def runningSquare (c : FieldCfg) (base : Nat) : Nat → Nat
  | 0 => base
  | k + 1 => product c (runningSquare c base k) (runningSquare c base k)

/-- The accumulator after k iterations of the exponentiator (44_exponentiator.md R84). -/
def runningAcc (c : FieldCfg) (base e : Nat) : Nat → Nat
  | 0 => 1
  | k + 1 =>
    if e.testBit k then product c (runningAcc c base e k) (runningSquare c base k) else runningAcc c base e k

/-- deg(u) + deg(v) of an Egcd record, after the swap (45_inverter.md R90). -/
def degreeSum : StepRecord → Int
  | .egcd u v _ _ _ _ => deg u.toNat + deg v.toNat
  | .mul _ _ _ _ _ _ => 0
  | .reduce _ _ _ => 0
  | .mod _ _ => 0
  | .exp _ _ _ _ _ => 0

/-- How many iterations an exponent takes: deg(e) + 1 (44_exponentiator.md R84). -/
def exponentBits (e : Nat) : Nat := (deg e + 1).toNat

/-- The records of a traced POW (44_exponentiator.md R84, R85). -/
def powTrace (c : FieldCfg) (nested : Bool) (base e : Nat) : List StepRecord :=
  (List.range (exponentBits e)).flatMap fun k =>
    (if nested then
      (if e.testBit k then (multiply c true (runningAcc c base e k) (runningSquare c base k)).records else [])
        ++ (multiply c true (runningSquare c base k) (runningSquare c base k)).records
     else [])
    ++ [expRecord (e.testBit k) (runningSquare c base k) (runningSquare c base (k + 1))
          (runningAcc c base e k) (runningAcc c base e (k + 1))]

/-- The iterations of the inverter from (u, v, g1, g2), with their records, to the last u and g1: a pair is
swapped when deg(u) < deg(v), the record shows the values after the swap and before the update, and the
loop stops at u = 1 or after the update that makes u = 0 (45_inverter.md R89). -/
def EuclidSteps : Nat → Nat → Nat → Nat → List StepRecord → Nat → Nat → Prop
  | u, _, g1, _, [], uEnd, gEnd => (u = 1 ∨ u = 0) ∧ uEnd = u ∧ gEnd = g1
  | u, v, g1, g2, rec :: rest, uEnd, gEnd =>
    u ≠ 1 ∧ u ≠ 0 ∧ ∃ uB vB g1B g2B k : Nat,
      (deg u < deg v → uB = v ∧ vB = u ∧ g1B = g2 ∧ g2B = g1) ∧
      (deg v ≤ deg u → uB = u ∧ vB = v ∧ g1B = g1 ∧ g2B = g2) ∧
      (k : Int) = deg uB - deg vB ∧
      rec = egcdRecord uB vB (1 <<< k) (uB ^^^ (vB <<< k)) g1B g2B ∧
      EuclidSteps (uB ^^^ (vB <<< k)) vB (g1B ^^^ (g2B <<< k)) g2B rest uEnd gEnd

/-- The records the inverter's last reduction keeps: one Mod record when TRACE_NESTED (45_inverter.md R90). -/
def nestedMod (nested : Bool) (g : Nat) : List StepRecord := if nested then [modRecord g g] else []

/-- mask(A) and mask(B) as remainders. -/
def elementA (s : State) : Nat := s.a.toNat % 2 ^ s.cfg.degree
def elementB (s : State) : Nat := s.b.toNat % 2 ^ s.cfg.degree

/-- The most records a command can make under a degree (47_step_recorder.md R100). -/
def traceBound (nested : Bool) (m : Nat) : Instr → Nat
  | .setcfg _ => 0
  | .defcfg _ => 0
  | .deg _ => 0
  | .add _ => 0
  | .red _ => 17 - m
  | .mul _ => 2 * m
  | .pow _ => if nested then 32 * (1 + 2 * m + 2 * m) else 32
  | .inv _ => (2 * m - 2) + (if nested then 1 else 0)
  | .div _ => (2 * m - 2 + 1) + 2 * m

/-- The errors a command can raise under a valid configuration (60_exceptions.md R105, R106). -/
def canRaise : Instr → List CoreError
  | .setcfg _ => [.invalidFieldSize, .invalidModulus]
  | .defcfg _ => [.invalidFieldSize]
  | .deg _ => []
  | .add _ => []
  | .red _ => []
  | .mul _ => []
  | .pow _ => []
  | .inv _ => [.noInverse, .notInvertible]
  | .div _ => [.noInverse, .notInvertible]

/-- A command that loads CFG and returns no value. -/
def isConfig : Instr → Bool
  | .setcfg _ => true
  | .defcfg _ => true
  | .deg _ => false
  | .add _ => false
  | .red _ => false
  | .mul _ => false
  | .pow _ => false
  | .inv _ => false
  | .div _ => false

/-- The variants a command may record (47_step_recorder.md R98, R100): tags of 30_encoding.md R57. -/
def ownTags : Instr → List (BitVec 4)
  | .setcfg _ => []
  | .defcfg _ => []
  | .deg _ => []
  | .add _ => []
  | .red _ => [2, 3]
  | .mul _ => [1, 2, 3]
  | .pow _ => [1, 2, 3, 4]
  | .inv _ => [2, 3, 5]
  | .div _ => [1, 2, 3, 5]

/-- The command with the other T. -/
def flipT : Instr → Instr
  | .setcfg t => .setcfg (!t)
  | .defcfg t => .defcfg (!t)
  | .deg t => .deg (!t)
  | .add t => .add (!t)
  | .red t => .red (!t)
  | .mul t => .mul (!t)
  | .pow t => .pow (!t)
  | .inv t => .inv (!t)
  | .div t => .div (!t)

end Sys2Proof.Machine

open Sys2Proof Sys2Proof.Machine

/-! ### Reset and the invariant -/

/-- 10_state.md R31: the reset values, reads of the trace window give 0 while no record is held, and the default
table is the same in every state. The working registers' reset value is the model's choice (log entry 5) and
not stated. -/
def Obligations.ResetLeavesTheStatedValues : Prop :=
  State.reset.a = 0 ∧ State.reset.b = 0 ∧ State.reset.x = 0 ∧ State.reset.e = 0 ∧ State.reset.res = 0 ∧
  State.reset.err = .clear ∧ State.reset.cfg = { m := 8, poly := 0x11B } ∧
  State.reset.traceCountWord = 0 ∧ State.reset.busy = false ∧ State.reset.tracing = false ∧
  (∀ k, State.reset.readReg (.traceLo k) = 0 ∧ State.reset.readReg (.traceHi k) = 0) ∧
  ∀ (s : State) (m : Nat), s.readReg (.deftab m) = State.reset.readReg (.deftab m)

/-- The invariant holds after reset (10_state.md R25, R31). -/
def Obligations.ResetMeetsTheInvariant : Prop := State.reset.Inv

/-- The invariant is kept by every step and by going on after a bus error, from EVERY state that meets it:
CFG stays valid (10_state.md R25), no command is ever seen running (20_memory.md R44), the trace buffer
never overflows (10_state.md R26). -/
def Obligations.EveryStepKeepsTheInvariant : Prop :=
  ∀ s : State, s.Inv →
    (∀ t, step s = .next t → t.Inv) ∧ ∀ c, (afterBusError c s).Inv

/-- 10_state.md R25: at every point where the host can observe the core CFG is valid, bit M of POLY is set, no
higher bit is, and POLY is not 0; and POLY need not be irreducible. -/
def Obligations.ReachableConfigurationIsValid : Prop :=
  (∀ s, Reachable s →
    2 ≤ s.cfg.m.toNat ∧ s.cfg.m.toNat ≤ 8 ∧ deg s.cfg.poly.toNat = (s.cfg.m.toNat : Int) ∧
    s.cfg.poly.toNat.testBit s.cfg.m.toNat = true ∧
    (∀ j, s.cfg.m.toNat < j → s.cfg.poly.toNat.testBit j = false) ∧ s.cfg.poly ≠ 0) ∧
  ∃ s, Reachable s ∧ irreducible s.cfg.poly.toNat = false

/-- From EVERY state that meets the invariant a step goes on or is a bus error of the host: a command never hangs
and nothing is refused; so it is in every reachable state (70_reset_and_hazards.md R115, 20_memory.md R44; the
faults are the model's, log entries 3 and 11). -/
def Obligations.ReachableStepsAreSafe : Prop :=
  (∀ s : State, s.Inv → SafeOutcome (step s)) ∧ ∀ s, Reachable s → SafeOutcome (step s)

/-! ### Decoding -/

/-- 30_encoding.md R52: the decoder's rule, on every word. -/
def Obligations.DecoderFollowsItsRule : Prop :=
  ∀ w : Word,
    (rsvField w ≠ 0 → ∃ why, decodeWord w = .illegal why) ∧
    (rsvField w = 0 → ∀ op : Nat, (opField w).toNat = op → 1 ≤ op → op ≤ 9 →
      ∃ i, decodeWord w = .command i ∧ (opcode i).toNat = op ∧ i.traced = w.getLsbD 4) ∧
    (rsvField w = 0 → (opField w).toNat = 0 ∨ 9 < (opField w).toNat → ∃ why, decodeWord w = .illegal why)

/-- 30_encoding.md R51: the opcode map for both values of T, the reserved opcodes, and the match and mask of
every legal row. -/
def Obligations.OpcodeMapIsTheTable : Prop :=
  (∀ t : Bool,
    opmap 0x0 t = none ∧ opmap 0x1 t = some (.setcfg t) ∧ opmap 0x2 t = some (.defcfg t) ∧
    opmap 0x3 t = some (.deg t) ∧ opmap 0x4 t = some (.add t) ∧ opmap 0x5 t = some (.red t) ∧
    opmap 0x6 t = some (.mul t) ∧ opmap 0x7 t = some (.pow t) ∧ opmap 0x8 t = some (.inv t) ∧
    opmap 0x9 t = some (.div t) ∧ ∀ op : BitVec 4, 0xA ≤ op.toNat → opmap op t = none) ∧
  (∀ w i, decodeWord w = .command i →
    w = (BitVec.ofBool i.traced ++ opcode i).setWidth 32 ∧ w &&& 0xFFFFFFEF = (opcode i).setWidth 32) ∧
  (∀ w : Word, (∃ i, decodeWord w = .command i) ↔
    (1 ≤ w.toNat ∧ w.toNat ≤ 9) ∨ (0x11 ≤ w.toNat ∧ w.toNat ≤ 0x19))

/-- A few words written out from the spec's encodings decode to what they stand for (30_encoding.md R50, R51). -/
def Obligations.WrittenWordsDecode : Prop :=
  decodeWord 0b00000000000000000000000000000001 = .command (.setcfg false) ∧
  decodeWord 0b00000000000000000000000000010010 = .command (.defcfg true) ∧
  decodeWord 0b00000000000000000000000000000011 = .command (.deg false) ∧
  decodeWord 0b00000000000000000000000000000100 = .command (.add false) ∧
  decodeWord 0b00000000000000000000000000010101 = .command (.red true) ∧
  decodeWord 0b00000000000000000000000000010110 = .command (.mul true) ∧
  decodeWord 0b00000000000000000000000000010111 = .command (.pow true) ∧
  decodeWord 0b00000000000000000000000000001000 = .command (.inv false) ∧
  decodeWord 0b00000000000000000000000000011001 = .command (.div true)

/-- Decode and encode agree in both directions, as words and as the bytes of the bus (30_encoding.md R50 to R53,
20_memory.md R42): a word decodes to a command exactly when it is the command's own word. -/
def Obligations.DecodeAndEncodeAgree : Prop :=
  (∀ (w : Word) (i : Instr), decodeWord w = .command i ↔ w = encode i) ∧
  (∀ (i : Instr) (rest : List Byte), decodeBytes (encodeBytes i ++ rest) = (.command i, rest)) ∧
  (∀ (w : Word) (rest : List Byte), decodeBytes (lanesOfWord w ++ rest) = (decodeWord w, rest))

/-- 30_encoding.md R53: exactly the reserved words are illegal, and the write of one to CMD sets STATUS.ERR to
code 5 and changes nothing else of the core (the access leaves the queue and is answered). -/
def Obligations.IllegalCommandSetsOnlyTheError : Prop :=
  (∀ w : Word, (∃ why, decodeWord w = .illegal why) ↔
    (w.extractLsb' 5 27 ≠ 0 ∨ (w.extractLsb' 0 4).toNat ∈ [0x0, 0xA, 0xB, 0xC, 0xD, 0xE, 0xF])) ∧
  (∀ (s : State) (w : Word) (why : IllegalReason) (rest : List Input),
    s.busy = false → s.pending = cmdWrite w :: rest → decodeWord w = .illegal why →
    step s = .next { s with err := .raised .illegalCommand, pending := rest, answer := .written }) ∧
  (ErrField.raised .illegalCommand).code = 5

/-! ### The step and the window -/

/-- When the head of the queue writes a word to CMD that decodes to a command, the step is exec of that command,
on the state with the access taken from the queue and answered (20_memory.md R43). -/
def Obligations.StepRunsTheDecodedCommand : Prop :=
  ∀ (s : State) (w : Word) (i : Instr) (rest : List Input),
    s.busy = false → s.pending = cmdWrite w :: rest → decodeWord w = .command i →
    step s = exec i { s with pending := rest, answer := .written }

/-- The core is idle with nothing waiting, and an access is held while a command runs, whichever it is
(70_reset_and_hazards.md R119, 20_memory.md R44). -/
def Obligations.IdleAndHeldStepsChangeNothing : Prop :=
  (∀ s : State, s.pending = [] → step s = .next s) ∧
  (∀ (s : State) (acc : Access) (rest : List Input),
    s.busy = true → s.pending = .access acc :: rest → step s = .next s)

/-- Inputs are performed one at a time in the order they came: a step takes exactly the oldest, and inputs that
come later change nothing of it but wait behind (20_memory.md R45, 70_reset_and_hazards.md R116). -/
def Obligations.InputsArePerformedInOrder : Prop :=
  ∀ (s t : State) (input : Input) (rest later : List Input),
    s.busy = false → s.pending = input :: rest → step s = .next t →
    t.pending = rest ∧ step (offer later s) = .next (offer later t)

/-- 20_memory.md R33: the map, both ways, and the three reserved ranges. -/
def Obligations.RegisterMapIsExact : Prop :=
  (∀ (off : Nat) (r : Reg), off < 2 ^ 16 → off % 4 = 0 → (regAt off = some r ↔ r.wf = true ∧ r.offset = off)) ∧
  (∀ off : Nat, off < 2 ^ 16 → off % 4 = 0 →
    (regAt off = none ↔
      (0x0024 ≤ off ∧ off ≤ 0x003F) ∨ (0x0080 ≤ off ∧ off ≤ 0x7FFF) ∨ (0xC000 ≤ off ∧ off ≤ 0xFFFF)))

/-- 20_memory.md R34, R35, R36: an access is a bus error exactly when its width is not 32 bits, its offset is
misaligned or its offset is reserved; the step is then a fault, and the state the host goes on from has the
access answered and nothing else changed. -/
def Obligations.BusErrorsAreExactlyTheIllegalAccesses : Prop :=
  ∀ (s : State) (acc : Access) (rest : List Input), s.busy = false → s.pending = .access acc :: rest →
    ((∃ c, step s = .fault (.busError c)) ↔
      (acc.width ≠ .w32 ∨ acc.off.toNat % 4 ≠ 0 ∨
        (0x0024 ≤ acc.off.toNat ∧ acc.off.toNat ≤ 0x003F) ∨
        (0x0080 ≤ acc.off.toNat ∧ acc.off.toNat ≤ 0x7FFF) ∨ 0xC000 ≤ acc.off.toNat)) ∧
    ∀ c, afterBusError c s = { s with pending := rest, answer := .busError c }

/-- 20_memory.md R40: a read answers with the register's word and changes nothing else, so reading again gives
the same; a write other than of CMD done twice is the write done once, and leaves RES, STATUS, CFG and the
trace alone. -/
def Obligations.ReadsHaveNoSideEffect : Prop :=
  (∀ (s : State) (off : Offset) (v : Word) (rest : List Input),
    s.busy = false → s.pending = .access (.read .w32 off) :: rest → s.readWindow off = some v →
    step s = .next { s with pending := rest, answer := .data v }) ∧
  (∀ (s : State) (a : Answer) (p : List Input) (off : Offset),
    State.readWindow { s with pending := p, answer := a } off = s.readWindow off) ∧
  (∀ (s : State) (v : Word) (r : Reg), (s.writeReg v r).writeReg v r = s.writeReg v r) ∧
  (∀ (s : State) (v : Word) (r : Reg),
    (s.writeReg v r).res = s.res ∧ (s.writeReg v r).err = s.err ∧ (s.writeReg v r).cfg = s.cfg ∧
    (s.writeReg v r).trace = s.trace)

/-- 20_memory.md R39: a write of A, B, X or E stores the low bits and does nothing else. -/
def Obligations.OperandWritesStoreLowBits : Prop :=
  ∀ (s : State) (off : Offset) (v : Word) (rest : List Input),
    s.busy = false → s.pending = .access (.write .w32 off v) :: rest →
    (off = 0x000C → step s = .next { s with a := v.extractLsb' 0 8, pending := rest, answer := .written }) ∧
    (off = 0x0010 → step s = .next { s with b := v.extractLsb' 0 8, pending := rest, answer := .written }) ∧
    (off = 0x0014 → step s = .next { s with x := v.extractLsb' 0 16, pending := rest, answer := .written }) ∧
    (off = 0x0018 → step s = .next { s with e := v, pending := rest, answer := .written })

/-- 20_memory.md R37: a write of a read-only register completes and changes no register. -/
def Obligations.ReadOnlyWritesChangeNothing : Prop :=
  ∀ (s : State) (off : Offset) (v : Word) (rest : List Input),
    s.busy = false → s.pending = .access (.write .w32 off v) :: rest → off.toNat % 4 = 0 →
    off.toNat ∈ [0x0004, 0x0008, 0x001C, 0x0020] ∨ (0x0040 ≤ off.toNat ∧ off.toNat ≤ 0x007C) ∨
      (0x8000 ≤ off.toNat ∧ off.toNat ≤ 0xBFFC) →
    step s = .next { s with pending := rest, answer := .written }

/-- 20_memory.md R38: bits beyond a register's width are ignored on write and read as 0, and the reserved fields
of the read-only registers read as 0. -/
def Obligations.BitsBeyondTheWidthReadZero : Prop :=
  (∀ (s : State) (v v' : Word),
    (v.extractLsb' 0 8 = v'.extractLsb' 0 8 →
      s.writeReg v .a = s.writeReg v' .a ∧ s.writeReg v .b = s.writeReg v' .b) ∧
    (v.extractLsb' 0 16 = v'.extractLsb' 0 16 → s.writeReg v .x = s.writeReg v' .x)) ∧
  (∀ s : State,
    (s.readReg .a).extractLsb' 8 24 = 0 ∧ (s.readReg .b).extractLsb' 8 24 = 0 ∧
    (s.readReg .x).extractLsb' 16 16 = 0 ∧ (s.readReg .status).extractLsb' 3 29 = 0 ∧
    (s.readReg .cfg).extractLsb' 4 4 = 0 ∧ (s.readReg .cfg).extractLsb' 17 15 = 0 ∧
    (s.readReg .traceCount).extractLsb' 16 16 = 0 ∧ ∀ m, (s.readReg (.deftab m)).extractLsb' 9 23 = 0)

/-- What each register other than the trace window reads as (10_state.md R15 to R19, R22 to R24, R26,
20_memory.md R33): CMD reads 0, the fields of STATUS, CFG and TRACE_COUNT stand where the spec puts them, and
a read after a write gives the stored bits. -/
def Obligations.RegistersReadTheirFields : Prop :=
  ∀ (s : State) (v : Word),
    s.readReg .cmd = 0 ∧
    (s.readReg .status).extractLsb' 0 3 = s.err.code ∧
    (s.readReg .cfg).extractLsb' 0 4 = s.cfg.m ∧ (s.readReg .cfg).extractLsb' 8 9 = s.cfg.poly ∧
    s.readReg .res = s.res ∧
    (s.traceCount ≤ 2048 → ((s.readReg .traceCount).extractLsb' 0 16).toNat = s.traceCount) ∧
    (s.writeReg v .a).readReg .a = (v.extractLsb' 0 8).setWidth 32 ∧
    (s.writeReg v .b).readReg .b = (v.extractLsb' 0 8).setWidth 32 ∧
    (s.writeReg v .x).readReg .x = (v.extractLsb' 0 16).setWidth 32 ∧
    (s.writeReg v .e).readReg .e = v

/-- 20_memory.md R41: the trace window reads the record's low and high word below TRACE_COUNT and 0 from there
on, so a high word of 0 says that there is no record. -/
def Obligations.TraceWindowReadsRecords : Prop :=
  ∀ (s : State) (k : Nat),
    (∀ rec, s.trace[k]? = some rec →
      s.readReg (.traceLo k) = rec.word.extractLsb' 0 32 ∧
      s.readReg (.traceHi k) = rec.word.extractLsb' 32 32 ∧ s.readReg (.traceHi k) ≠ 0) ∧
    (s.traceCount ≤ k → s.readReg (.traceLo k) = 0 ∧ s.readReg (.traceHi k) = 0)

/-- 30_encoding.md R58 to R62: each record's word is the spec's formula. -/
def Obligations.RecordWordsAreTheFormulas : Prop :=
  (∀ i bBit aBefore aAfter pBefore pAfter,
    (StepRecord.mul i bBit aBefore aAfter pBefore pAfter).word.toNat =
      (1 <<< 60) ||| (pAfter.toNat <<< 40) ||| (pBefore.toNat <<< 24) ||| (aAfter.toNat <<< 16) |||
        (aBefore.toNat <<< 8) ||| (bBit.toNat <<< 3) ||| i.toNat) ∧
  (∀ carry before after,
    (StepRecord.reduce carry before after).word.toNat =
      (2 <<< 60) ||| (after.toNat <<< 24) ||| (before.toNat <<< 8) ||| carry.toNat) ∧
  (∀ before after,
    (StepRecord.mod before after).word.toNat = (3 <<< 60) ||| (after.toNat <<< 16) ||| before.toNat) ∧
  (∀ bit baseBefore baseAfter accBefore accAfter,
    (StepRecord.exp bit baseBefore baseAfter accBefore accAfter).word.toNat =
      (4 <<< 60) ||| (accAfter.toNat <<< 32) ||| (accBefore.toNat <<< 24) ||| (baseAfter.toNat <<< 16) |||
        (baseBefore.toNat <<< 8) ||| bit.toNat) ∧
  (∀ a b q r t0 t1,
    (StepRecord.egcd a b q r t0 t1).word.toNat =
      (5 <<< 60) ||| (t1.toNat <<< 50) ||| (t0.toNat <<< 40) ||| (r.toNat <<< 30) ||| (q.toNat <<< 20) |||
        (b.toNat <<< 10) ||| a.toNat)

/-- A record's word and the record read back from it agree in both directions, and its tag is one of 1 to 5
(30_encoding.md R56 to R62). -/
def Obligations.RecordWordsReadBack : Prop :=
  (∀ rec : StepRecord, recordOfWord rec.word = some rec ∧
    1 ≤ (recordTag rec.word).toNat ∧ (recordTag rec.word).toNat ≤ 5) ∧
  (∀ (w : RecordWord) (rec : StepRecord), recordOfWord w = some rec → rec.word = w)

/-- The reset input sets every register to its reset value, between commands and while a command runs; in the
second case the abandoned command leaves nothing (70_reset_and_hazards.md R113). -/
def Obligations.ResetInputResetsTheCore : Prop :=
  ∀ (s : State) (rest : List Input),
    (s.pending = .reset :: rest →
      step s = .next { State.reset with pending := rest, answer := s.answer, draws := s.draws }) ∧
    (∀ w, s.pending = .resetDuring w :: rest →
      ∃ t, step s = .next t ∧
        { t with answer := Answer.none, draws := 0 } = { State.reset with pending := rest })

/-- The host-program syntax (30_encoding.md R64, R65), one clause for each kind of line: `wr` writes its operand
register at its offset, `rd` reads its register, `cmd` writes its own word to CMD and a raw word as it is; each
pseudo-instruction is the lines it stands for; and a program is its lines' accesses in order. -/
def Obligations.HostProgramLinesExpand : Prop :=
  (∀ v : Word,
    (AsmLine.wr .a v).expand = [.write .w32 0x000C v] ∧ (AsmLine.wr .b v).expand = [.write .w32 0x0010 v] ∧
    (AsmLine.wr .x v).expand = [.write .w32 0x0014 v] ∧ (AsmLine.wr .e v).expand = [.write .w32 0x0018 v]) ∧
  (∀ r : OperandReg, (readOf r.reg).target = .reg r.reg ∧ ∀ v, (writeOf r.reg v).target = .reg r.reg) ∧
  (∀ r : Reg, r.wf = true →
    ∃ off : Offset, (AsmLine.rd r).expand = [.read .w32 off] ∧ off.toNat = r.offset ∧
      (Access.read .w32 off).target = .reg r) ∧
  (∀ i : Instr,
    (AsmLine.cmd i).expand =
      [.write .w32 0x0000 ((opcode i).setWidth 32 ||| (if i.traced then 0x10 else 0))]) ∧
  (∀ w : Word, (AsmLine.cmdRaw w).expand = [.write .w32 0x0000 w]) ∧
  (∀ t, (AsmLine.sub t).expand = (AsmLine.cmd (.add t)).expand ∧
    (AsmLine.sub t).expand = [.write .w32 0x0000 (if t then 0x14 else 0x04)]) ∧
  (∀ m poly, (AsmLine.cfg m poly).expand =
    (AsmLine.wr .a m).expand ++ (AsmLine.wr .x poly).expand ++ (AsmLine.cmd (.setcfg false)).expand) ∧
  (∀ m, (AsmLine.dcfg m).expand = (AsmLine.wr .a m).expand ++ (AsmLine.cmd (.defcfg false)).expand) ∧
  (∀ t a, (AsmLine.sqr t a).expand =
    (AsmLine.wr .a a).expand ++ (AsmLine.wr .b a).expand ++ (AsmLine.cmd (.mul t)).expand) ∧
  (∀ k, (AsmLine.rdt k).expand = (AsmLine.rd (.traceLo k)).expand ++ (AsmLine.rd (.traceHi k)).expand) ∧
  programInputs [] = [] ∧
  ∀ line lines, programInputs (line :: lines) = line.expand.map Input.access ++ programInputs lines

/-! ### Configuration and primitives -/

/-- 40_configuration.md R66: SETCFG rejects a degree outside 2..8 first, then a modulus of another degree, and
otherwise loads CFG; it changes nothing else but what every command writes. -/
def Obligations.SetcfgLoadsOrRejects : Prop :=
  (decodeWord 0x00000001 = .command (.setcfg false) ∧ decodeWord 0x00000011 = .command (.setcfg true)) ∧
  ∀ (t : Bool) (s : State),
    (s.a.toNat < 2 ∨ 8 < s.a.toNat →
      exec (.setcfg t) s = .next (commandDone s (.raised .invalidFieldSize) [])) ∧
    (2 ≤ s.a.toNat → s.a.toNat ≤ 8 → s.x.toNat < 2 ^ s.a.toNat ∨ 2 ^ (s.a.toNat + 1) ≤ s.x.toNat →
      exec (.setcfg t) s = .next (commandDone s (.raised .invalidModulus) [])) ∧
    (2 ≤ s.a.toNat → s.a.toNat ≤ 8 → 2 ^ s.a.toNat ≤ s.x.toNat → s.x.toNat < 2 ^ (s.a.toNat + 1) →
      exec (.setcfg t) s =
        .next { commandDone s .clear [] with cfg := { m := s.a.extractLsb' 0 4, poly := s.x.extractLsb' 0 9 } })

/-- 40_configuration.md R67: DEFCFG rejects a degree outside 2..8 and otherwise loads the table's polynomial. -/
def Obligations.DefcfgLoadsTheTable : Prop :=
  (decodeWord 0x00000002 = .command (.defcfg false) ∧ decodeWord 0x00000012 = .command (.defcfg true)) ∧
  ∀ (t : Bool) (s : State),
    (s.a.toNat < 2 ∨ 8 < s.a.toNat →
      exec (.defcfg t) s = .next (commandDone s (.raised .invalidFieldSize) [])) ∧
    (2 ≤ s.a.toNat → s.a.toNat ≤ 8 →
      exec (.defcfg t) s =
        .next { commandDone s .clear [] with cfg := { m := s.a.extractLsb' 0 4, poly := deftab s.a.toNat } })

/-- 10_state.md R28: the default table, whatever the open choices are: irreducible of degree exactly m for 2 to 8,
0 elsewhere, 0x25 for 5 and 0x11B for 8; and it reads as its entry, zero-extended (20_memory.md R33). -/
def Obligations.DefaultTableIsIrreducible : Prop :=
  deftab 5 = 0x25 ∧ deftab 8 = 0x11B ∧
  (∀ m, 2 ≤ m → m ≤ 8 → deg (deftab m).toNat = (m : Int) ∧ irreducible (deftab m).toNat = true) ∧
  (∀ m, m < 2 ∨ 8 < m → deftab m = 0) ∧
  ∀ (s : State) (m : Nat), (s.readReg (.deftab m)).toNat = (deftab m).toNat

/-- 41_primitives.md R70: the degree is the index of the highest set bit, -1 for 0. -/
def Obligations.DegreeIsTheHighestBit : Prop :=
  deg 0 = -1 ∧
  ∀ p : Nat, 0 < p → ∃ d : Nat, deg p = (d : Int) ∧ 2 ^ d ≤ p ∧ p < 2 ^ (d + 1) ∧
    ∀ d' : Nat, 2 ^ d' ≤ p → p < 2 ^ (d' + 1) → d' = d

/-- 41_primitives.md R73: DEG writes the degree of X, 0xFFFFFFFF for X = 0, whatever CFG is, and raises nothing. -/
def Obligations.DegWritesTheDegree : Prop :=
  (decodeWord 0x00000003 = .command (.deg false) ∧ decodeWord 0x00000013 = .command (.deg true)) ∧
  ∀ (t : Bool) (s : State),
    (s.x = 0 → exec (.deg t) s = .next { commandDone s .clear [] with res := 0xFFFFFFFF }) ∧
    (∀ d : Nat, 2 ^ d ≤ s.x.toNat → s.x.toNat < 2 ^ (d + 1) →
      exec (.deg t) s = .next (resultDone s [] d))

/-- 41_primitives.md R74: ADD writes the XOR of A and B, masked to m bits, and raises nothing. -/
def Obligations.AddWritesTheMaskedXor : Prop :=
  (decodeWord 0x00000004 = .command (.add false) ∧ decodeWord 0x00000014 = .command (.add true)) ∧
  ∀ (t : Bool) (s : State),
    exec (.add t) s = .next (resultDone s [] ((s.a.toNat ^^^ s.b.toNat) % 2 ^ s.cfg.degree))

/-- 41_primitives.md R72, R75: field addition is XOR on elements, commutative, associative, with 0 as unit and
every element its own inverse. -/
def Obligations.AdditionLaws : Prop :=
  ∀ (c : FieldCfg) (a b d : Nat), a < 2 ^ c.degree → b < 2 ^ c.degree → d < 2 ^ c.degree →
    fieldAdd c a b = a ^^^ b ∧ fieldAdd c a b < 2 ^ c.degree ∧ fieldAdd c a 0 = a ∧ fieldAdd c a a = 0 ∧
    fieldAdd c a b = fieldAdd c b a ∧ fieldAdd c (fieldAdd c a b) d = fieldAdd c a (fieldAdd c b d)

/-! ### The reducer -/

/-- 42_reducer.md R76: the guard, and under a valid configuration the passes of a reduction and its records,
whether kept or not, and the bound on the number of passes. -/
def Obligations.ReducerFollowsItsLoop : Prop :=
  (∀ (c : FieldCfg) (on : Bool) (x : Nat), deg c.modulus ≠ (c.degree : Int) →
    reduce c on x = { records := [], result := .error .invalidModulus }) ∧
  ∀ (c : FieldCfg) (x : Nat), c.valid → x < 2 ^ 16 →
    ∃ (steps : List (Nat × Nat × Nat)) (r : Nat),
      ReduceSteps c.modulus x steps r ∧ (steps.length : Int) ≤ max 0 (deg x - c.degree + 1) ∧
      steps.length ≤ 16 - c.degree ∧ r < 2 ^ c.degree ∧
      reduce c true x =
        { records := steps.map (fun st => reduceRecord st.1 st.2.1 st.2.2) ++ [modRecord x r],
          result := .value r } ∧
      reduce c false x = { records := [], result := .value r }

/-- 42_reducer.md R79: the result is the unique polynomial below degree m that is congruent to x modulo POLY, and
reducing it again changes nothing. -/
def Obligations.ReductionIsTheUniqueRemainder : Prop :=
  ∀ (c : FieldCfg) (x : Nat), c.valid → x < 2 ^ 16 →
    ∃ r, (reduce c false x).result = .value r ∧ r < 2 ^ c.degree ∧ congruent x r c.modulus ∧
      (∀ r', r' < 2 ^ c.degree → congruent x r' c.modulus → r' = r) ∧
      (reduce c false r).result = .value r

/-- 42_reducer.md R77: the guard raises InvalidModulus, with no record, exactly when POLY has another degree than M,
in RED as in a multiplication; no valid configuration has such a POLY. -/
def Obligations.ReducerGuardRaises : Prop :=
  (∀ (t : Bool) (s : State), deg s.cfg.modulus ≠ (s.cfg.degree : Int) →
    exec (.red t) s = .next (commandDone s (.raised .invalidModulus) [])) ∧
  (∀ (c : FieldCfg) (on : Bool) (x : Nat),
    (reduce c on x).result = .error .invalidModulus ↔ deg c.modulus ≠ (c.degree : Int)) ∧
  (∀ (c : FieldCfg) (on : Bool) (a b : Nat), deg c.modulus ≠ (c.degree : Int) →
    (multiply c on a b).result = .error .invalidModulus) ∧
  (∀ (c : FieldCfg) (on : Bool) (x : Nat), c.valid → (reduce c on x).result ≠ .error .invalidModulus)

/-- 42_reducer.md R78: RED writes the remainder of X and records the reduction when T is set. -/
def Obligations.RedWritesTheRemainder : Prop :=
  (decodeWord 0x00000005 = .command (.red false) ∧ decodeWord 0x00000015 = .command (.red true)) ∧
  ∀ (t : Bool) (s : State), s.cfg.valid →
    ∃ (recs : List StepRecord) (r : Nat), ReduceTrace s.cfg.modulus s.x.toNat recs r ∧
      1 ≤ recs.length ∧ recs.length ≤ 17 - s.cfg.degree ∧ r < 2 ^ s.cfg.degree ∧
      exec (.red t) s = .next (resultDone s (if t then recs else []) r)

/-! ### The multiplier -/

/-- 43_multiplier.md R83: the product is the unique element congruent to a·b, and multiplication is a commutative
ring multiplication on the elements, for EVERY modulus of degree m. -/
def Obligations.MultiplicationIsTheRingProduct : Prop :=
  ∀ (c : FieldCfg) (a b d : Nat), c.valid → a < 2 ^ c.degree → b < 2 ^ c.degree → d < 2 ^ c.degree →
    product c a b < 2 ^ c.degree ∧ congruent (clmul a b) (product c a b) c.modulus ∧
    (∀ r, r < 2 ^ c.degree → congruent (clmul a b) r c.modulus → r = product c a b) ∧
    product c a b = product c b a ∧
    product c (product c a b) d = product c a (product c b d) ∧
    product c a (fieldAdd c b d) = fieldAdd c (product c a b) (product c a d) ∧
    product c a 0 = 0 ∧ product c a 1 = a

/-- 43_multiplier.md R80, R82: MUL writes the product of the masked operands, reduced once from the full carry-less
product of degree at most 2m - 2, and records m Mul records in order and then the reduction, m + 1 to 2m
records, when T is set. -/
def Obligations.MulWritesTheProduct : Prop :=
  (decodeWord 0x00000006 = .command (.mul false) ∧ decodeWord 0x00000016 = .command (.mul true)) ∧
  ∀ (t : Bool) (s : State), s.cfg.valid →
    ∃ (recs : List StepRecord) (r : Nat),
      ReduceTrace s.cfg.modulus (clmul (elementA s) (elementB s)) recs r ∧ r < 2 ^ s.cfg.degree ∧
      deg (clmul (elementA s) (elementB s)) ≤ 2 * (s.cfg.degree : Int) - 2 ∧
      1 ≤ recs.length ∧ recs.length ≤ s.cfg.degree ∧
      exec (.mul t) s =
        .next (resultDone s (if t then mulTrace s.cfg.degree (elementA s) (elementB s) ++ recs else []) r)

/-! ### The exponentiator -/

/-- 44_exponentiator.md R84, R85: the iterations of the exponentiator, one Exp record each, with the records of the
two multiplications before it exactly when TRACE_NESTED; for both values of TRACE_NESTED. -/
def Obligations.ExponentiatorFollowsItsLoop : Prop :=
  ∀ (c : FieldCfg) (nested : Bool) (base e : Nat), c.valid → base < 2 ^ c.degree → e < 2 ^ 32 →
    power c nested true base e =
      { records := powTrace c nested base e, result := .value (runningAcc c base e (exponentBits e)) } ∧
    power c nested false base e =
      { records := [], result := .value (runningAcc c base e (exponentBits e)) } ∧
    exponentBits e ≤ 32

/-- Binary exponentiation is the repeated product: square and multiply computes the e-fold product of the base
(44_exponentiator.md R84, R86; 00_scope.md R10). -/
def Obligations.PowerIsTheRepeatedProduct : Prop :=
  ∀ (c : FieldCfg) (nested on : Bool) (base e : Nat), c.valid → base < 2 ^ c.degree → e < 2 ^ 32 →
    (power c nested on base e).result = .value (iteratedProduct c base e)

/-- 44_exponentiator.md R87: power(a, 0) = 1 for every a; for an irreducible modulus and a nonzero a the power
2^m - 1 is 1, and powers repeat with that period. -/
def Obligations.GroupOrderLaw : Prop :=
  ∀ (c : FieldCfg) (a : Nat), c.valid → a < 2 ^ c.degree →
    iteratedProduct c a 0 = 1 ∧ (power c false false a 0).result = .value 1 ∧
    (irreducible c.modulus = true → a ≠ 0 →
      (power c false false a (2 ^ c.degree - 1)).result = .value 1 ∧
      iteratedProduct c a (2 ^ c.degree - 1) = 1 ∧
      ∀ e, iteratedProduct c a (e + (2 ^ c.degree - 1)) = iteratedProduct c a e)

/-- 44_exponentiator.md R86: POW writes the E-fold product of mask(A), raises nothing, and records its iterations
when T is set. -/
def Obligations.PowWritesThePower : Prop :=
  (decodeWord 0x00000007 = .command (.pow false) ∧ decodeWord 0x00000017 = .command (.pow true)) ∧
  ∀ (t : Bool) (s : State), s.cfg.valid →
    exec (.pow t) s =
      .next (resultDone s (if t then powTrace s.cfg Config.traceNested (elementA s) s.e.toNat else [])
        (runningAcc s.cfg (elementA s) s.e.toNat (exponentBits s.e.toNat))) ∧
    (s.e = 0 → runningAcc s.cfg (elementA s) s.e.toNat (exponentBits s.e.toNat) = 1) ∧
    (s.e = 1 → runningAcc s.cfg (elementA s) s.e.toNat (exponentBits s.e.toNat) = elementA s) ∧
    (s.e ≠ 0 → elementA s = 0 → runningAcc s.cfg (elementA s) s.e.toNat (exponentBits s.e.toNat) = 0)

/-! ### The inverter and division -/

/-- 45_inverter.md R90: at most 2m - 2 iterations, each with a lower deg(u) + deg(v) than the one before, the bounds
of every recorded value, and at most 12 iterations under (8, 0x11B), which some operand takes. -/
def Obligations.InverterBounds : Prop :=
  (∀ (c : FieldCfg) (a : Nat), c.valid → 1 ≤ a → a < 2 ^ c.degree →
    (invert c false true a).records.length ≤ 2 * c.degree - 2 ∧
    ((invert c false true a).records.map degreeSum).Pairwise (fun earlier later => later < earlier) ∧
    (∀ rec ∈ (invert c false true a).records, ∃ u v q r t0 t1, rec = .egcd u v q r t0 t1 ∧
      u.toNat < 2 ^ (c.degree + 1) ∧ v.toNat < 2 ^ c.degree ∧ q.toNat ≤ 2 ^ (c.degree - 1) ∧
      r.toNat < 2 ^ c.degree ∧ t0.toNat < 2 ^ c.degree ∧ t1.toNat < 2 ^ c.degree) ∧
    ∀ g, (invert c false true a).result = .value g →
      g < 2 ^ c.degree ∧ (invert c true true a).records = (invert c false true a).records ++ [modRecord g g]) ∧
  (∀ a, 1 ≤ a → a < 256 → (invert { m := 8, poly := 0x11B } false true a).records.length ≤ 12) ∧
  ∃ a, 1 ≤ a ∧ a < 256 ∧ (invert { m := 8, poly := 0x11B } false true a).records.length = 12

/-- 45_inverter.md R92: under any modulus of degree m the inverter returns the ring inverse of an operand coprime
to it and raises NotInvertible for every other; under an irreducible one every nonzero operand has its
inverse. -/
def Obligations.InverseIsTheRingInverse : Prop :=
  ∀ (c : FieldCfg) (nested on : Bool) (a : Nat), c.valid → 1 ≤ a → a < 2 ^ c.degree →
    (coprime a c.modulus = true →
      ∃ y, (invert c nested on a).result = .value y ∧ y < 2 ^ c.degree ∧ product c a y = 1) ∧
    (coprime a c.modulus = false → (invert c nested on a).result = .error .notInvertible) ∧
    (irreducible c.modulus = true → coprime a c.modulus = true)

/-- 45_inverter.md R91: INV raises NoInverse for mask(A) = 0 with no record, NotInvertible with the records made
up to the iteration that leaves u = 0 when mask(A) shares a factor with POLY, and otherwise writes the
inverse; RES changes on success only. -/
def Obligations.InvWritesTheInverse : Prop :=
  (decodeWord 0x00000008 = .command (.inv false) ∧ decodeWord 0x00000018 = .command (.inv true)) ∧
  ∀ (t : Bool) (s : State), s.cfg.valid →
    (elementA s = 0 → exec (.inv t) s = .next (commandDone s (.raised .noInverse) [])) ∧
    (elementA s ≠ 0 → coprime (elementA s) s.cfg.modulus = false →
      ∃ (recs : List StepRecord) (g : Nat), EuclidSteps (elementA s) s.cfg.modulus 1 0 recs 0 g ∧
        exec (.inv t) s = .next (commandDone s (.raised .notInvertible) (if t then recs else []))) ∧
    (irreducible s.cfg.modulus = true → elementA s ≠ 0 → coprime (elementA s) s.cfg.modulus = true) ∧
    (coprime (elementA s) s.cfg.modulus = true →
      ∃ (recs : List StepRecord) (g : Nat), EuclidSteps (elementA s) s.cfg.modulus 1 0 recs 1 g ∧
        g < 2 ^ s.cfg.degree ∧ product s.cfg (elementA s) g = 1 ∧
        exec (.inv t) s = .next (resultDone s (if t then recs ++ nestedMod Config.traceNested g else []) g))

/-- 46_division.md R94: DIV inverts mask(B), whose errors end it before any product and with RES unchanged, then
writes the product of mask(A) and the inverse; it records both when T is set. -/
def Obligations.DivWritesTheQuotient : Prop :=
  (decodeWord 0x00000009 = .command (.div false) ∧ decodeWord 0x00000019 = .command (.div true)) ∧
  ∀ (t : Bool) (s : State), s.cfg.valid →
    (elementB s = 0 → exec (.div t) s = .next (commandDone s (.raised .noInverse) [])) ∧
    (elementB s ≠ 0 → coprime (elementB s) s.cfg.modulus = false →
      ∃ (recs : List StepRecord) (g : Nat), EuclidSteps (elementB s) s.cfg.modulus 1 0 recs 0 g ∧
        exec (.div t) s = .next (commandDone s (.raised .notInvertible) (if t then recs else []))) ∧
    (irreducible s.cfg.modulus = true → elementB s ≠ 0 → coprime (elementB s) s.cfg.modulus = true) ∧
    (coprime (elementB s) s.cfg.modulus = true →
      ∃ (recs red : List StepRecord) (g r : Nat), EuclidSteps (elementB s) s.cfg.modulus 1 0 recs 1 g ∧
        ReduceTrace s.cfg.modulus (clmul (elementA s) g) red r ∧ r < 2 ^ s.cfg.degree ∧
        product s.cfg (elementB s) g = 1 ∧ product s.cfg r (elementB s) = elementA s ∧
        exec (.div t) s =
          .next (resultDone s
            (if t then recs ++ nestedMod Config.traceNested g ++ mulTrace s.cfg.degree (elementA s) g ++ red
             else []) r))

/-- 46_division.md R93, R95: division is the product with the inverse and fails as the inverter does; the quotient
times the divisor is the dividend for every divisor coprime to the modulus, so for every nonzero one when the
modulus is irreducible. -/
def Obligations.DivisionUndoesMultiplication : Prop :=
  ∀ (c : FieldCfg) (nested on : Bool) (a b : Nat), c.valid → a < 2 ^ c.degree → b < 2 ^ c.degree →
    (b = 0 → (divide c nested on a b).result = .error .noInverse) ∧
    (b ≠ 0 → coprime b c.modulus = false → (divide c nested on a b).result = .error .notInvertible) ∧
    (b ≠ 0 → coprime b c.modulus = true ∨ irreducible c.modulus = true →
      ∃ q, (divide c nested on a b).result = .value q ∧ q < 2 ^ c.degree ∧ product c q b = a)

/-- The Euclid loop fails to end only under POLY = 0 and an operand of 2 or more, which no valid configuration
allows: the model's named fault (log entry 11; 45_inverter.md R90, 70_reset_and_hazards.md R115). -/
def Obligations.NeverEndingNeedsZeroModulus : Prop :=
  ∀ (i : Instr) (s : State), exec i s = .fault .commandNeverCompletes → s.cfg.poly = 0

/-! ### The frame, errors and the trace -/

/-- Every command completes under a valid configuration (70_reset_and_hazards.md R115, 20_memory.md R44), and no
outcome of exec is a refusal. -/
def Obligations.EveryCommandCompletes : Prop :=
  ∀ (i : Instr) (s : State), (s.cfg.valid → ∃ t, exec i s = .next t) ∧ ∀ r, exec i s ≠ .refused r

/-- What no command changes, and what only some do (60_exceptions.md R103, 10_state.md R15 to R19,
40_configuration.md R69): the operands and the host's side stay; CFG changes in SETCFG and DEFCFG only; RES
changes in the others only, and on success only. -/
def Obligations.CommandFrame : Prop :=
  ∀ (i : Instr) (s t : State), exec i s = .next t →
    t.a = s.a ∧ t.b = s.b ∧ t.x = s.x ∧ t.e = s.e ∧ t.pending = s.pending ∧ t.answer = s.answer ∧
    t.busy = false ∧ t.tracing = false ∧
    (isConfig i = false → t.cfg = s.cfg) ∧ (isConfig i = true → t.res = s.res) ∧
    (t.err ≠ .clear → t.res = s.res ∧ t.cfg = s.cfg)

/-- The frame as the host sees it: after a command every offset reads as before but STATUS, TRACE_COUNT, the trace
window, and RES (or CFG for SETCFG and DEFCFG) (20_memory.md R43, 60_exceptions.md R103). -/
def Obligations.CommandFrameInTheWindow : Prop :=
  ∀ (i : Instr) (s t : State) (off : Offset), exec i s = .next t →
    off ≠ 0x0004 → off ≠ 0x0020 → ¬ (0x8000 ≤ off.toNat ∧ off.toNat < 0xC000) →
    (isConfig i = true → off ≠ 0x0008) → (isConfig i = false → off ≠ 0x001C) →
    t.readWindow off = s.readWindow off

/-- 60_exceptions.md R108: a command that ends in an error leaves the state exactly as it was, but for STATUS.ERR
and the trace (and the hidden working registers, which are not of the state a host sees). -/
def Obligations.ErrorsArePrecise : Prop :=
  ∀ (i : Instr) (s t : State) (e : CoreError), exec i s = .next t → t.err = .raised e →
    t = commandDone s (.raised e) t.trace

/-- 60_exceptions.md R105, R106: the codes of the errors, and which command can raise which; POW with E = 0
succeeds and returns 1 whatever A is. -/
def Obligations.CommandsRaiseOnlyTheirErrors : Prop :=
  ErrField.clear.code = 0 ∧ CoreError.invalidModulus.code = 1 ∧ CoreError.noInverse.code = 2 ∧
  CoreError.notInvertible.code = 3 ∧ CoreError.invalidFieldSize.code = 4 ∧ CoreError.illegalCommand.code = 5 ∧
  (∀ (i : Instr) (s t : State) (e : CoreError), s.cfg.valid → exec i s = .next t → t.err = .raised e →
    e ∈ canRaise i) ∧
  (∀ (i : Instr) (s t : State), s.cfg.valid → exec i s = .next t → irreducible s.cfg.modulus = true →
    t.err ≠ .raised .notInvertible) ∧
  (∀ (t : Bool) (s : State), s.e = 0 → exec (.pow t) s = .next (resultDone s [] 1))

/-- 30_encoding.md R55: an element result is below 2^M and stands zero-extended in RES; a degree is -1 to 15 in two's
complement. -/
def Obligations.ResultsHaveTheirForm : Prop :=
  ∀ (i : Instr) (s t : State), s.cfg.valid → exec i s = .next t → t.err = .clear →
    (i = .deg true ∨ i = .deg false → -1 ≤ t.res.toInt ∧ t.res.toInt ≤ 15 ∧ t.res.toInt = deg s.x.toNat) ∧
    (isConfig i = false → i ≠ .deg true → i ≠ .deg false → t.res.toNat < 2 ^ s.cfg.degree)

/-- 47_step_recorder.md R99: flipping T of any command word changes neither RES nor CFG nor STATUS, and neither the
trace setting nor TRACE_NESTED changes a result; and no command reads the trace. -/
def Obligations.TraceNeverChangesAResult : Prop :=
  (∀ (w : Word) (s t : State), runCommandWord w s = .next t →
    ∃ u, runCommandWord (w ^^^ 0x10) s = .next u ∧ u.res = t.res ∧ u.cfg = t.cfg ∧ u.err = t.err) ∧
  (∀ (c : FieldCfg) (nested nested' on on' : Bool) (a b : Nat),
    (reduce c on a).result = (reduce c on' a).result ∧
    (multiply c on a b).result = (multiply c on' a b).result ∧
    (power c nested on a b).result = (power c nested' on' a b).result ∧
    (invert c nested on a).result = (invert c nested' on' a).result ∧
    (divide c nested on a b).result = (divide c nested' on' a b).result) ∧
  (∀ (i : Instr) (s : State) (old : List StepRecord), exec i { s with trace := old } = exec i s)

/-- 47_step_recorder.md R100: how many records a command can make, for the TRACE_NESTED of the core, and that the
buffer holds them all. -/
def Obligations.TraceBounds : Prop :=
  (∀ (i : Instr) (s t : State), s.cfg.valid → exec i s = .next t →
    t.traceCount ≤ traceBound Config.traceNested s.cfg.degree i) ∧
  (∀ (nested : Bool) (m : Nat) (i : Instr), m ≤ 8 → traceBound nested m i < Config.traceDepth) ∧
  (∀ (c : FieldCfg) (nested : Bool) (a b : Nat), c.valid → a < 2 ^ c.degree → b < 2 ^ 32 →
    (power c nested true a b).records.length ≤ traceBound nested c.degree (.pow true) ∧
    (invert c nested true a).records.length ≤ traceBound nested c.degree (.inv true) ∧
    (∀ d, d < 2 ^ c.degree →
      (divide c nested true d a).records.length ≤ traceBound nested c.degree (.div true)))

/-- 47_step_recorder.md R96: a legal command clears the trace first, so with T = 0, or when it records nothing, the
trace is empty after it; what an earlier command recorded never shows; and an illegal command keeps it. -/
def Obligations.LegalCommandsClearTheTrace : Prop :=
  (∀ (i : Instr) (s t : State), exec i s = .next t → i.traced = false → t.trace = []) ∧
  (∀ (i : Instr) (s t : State), exec i s = .next t → ownTags i = [] → t.trace = []) ∧
  (∀ (i : Instr) (s : State) (old : List StepRecord), exec i { s with trace := old } = exec i s) ∧
  (∀ (w : Word) (why : IllegalReason) (s : State), decodeWord w = .illegal why →
    ∃ t, runCommandWord w s = .next t ∧ t.trace = s.trace)

/-- 47_step_recorder.md R98, R101: each command records only its own variants, also when it ends in an error. -/
def Obligations.CommandsRecordOnlyTheirVariants : Prop :=
  ∀ (i : Instr) (s t : State) (rec : StepRecord), exec i s = .next t → rec ∈ t.trace →
    recordTag rec.word ∈ ownTags i

/-- A command is a function of its word, A, B, X, E and CFG (10_state.md R29): two states that agree on these give
the same error, trace and configuration, and the same result wherever one is written, whatever RES, the old
status, the old trace and the hidden state are. -/
def Obligations.CommandsDependOnOperandsOnly : Prop :=
  ∀ (i : Instr) (s s' t : State),
    s.a = s'.a → s.b = s'.b → s.x = s'.x → s.e = s'.e → s.cfg = s'.cfg → exec i s = .next t →
    ∃ t', exec i s' = .next t' ∧ t'.err = t.err ∧ t'.trace = t.trace ∧ t'.cfg = t.cfg ∧
      (t.err = .clear → isConfig i = false → t'.res = t.res) ∧
      (s'.res = s.res → ∀ off, t'.readWindow off = t.readWindow off)

/-- The hidden working registers never reach the host: two states that differ only in them step alike, up to them
(10_state.md R29). -/
def Obligations.HiddenStateNeverLeaks : Prop :=
  ∀ (s : State) (w : Working),
    (∀ t, step s = .next t → ∃ w', step { s with work := w } = .next { t with work := w' }) ∧
    (∀ f, step s = .fault f → step { s with work := w } = .fault f)
end

