-- ==== Sys2Proof/Laws/State.lean ====
section
/-! SUPPORT. One lemma per field and update of State, each true by rfl, so that no proof unfolds a record update. -/

namespace Sys2Proof.Machine

/-! ### setA -/

@[simp] theorem State.setA_a (s : State) (v : BitVec 8) : (s.setA v).a = v := rfl
@[simp] theorem State.setA_b (s : State) (v : BitVec 8) : (s.setA v).b = s.b := rfl
@[simp] theorem State.setA_x (s : State) (v : BitVec 8) : (s.setA v).x = s.x := rfl
@[simp] theorem State.setA_e (s : State) (v : BitVec 8) : (s.setA v).e = s.e := rfl
@[simp] theorem State.setA_res (s : State) (v : BitVec 8) : (s.setA v).res = s.res := rfl
@[simp] theorem State.setA_err (s : State) (v : BitVec 8) : (s.setA v).err = s.err := rfl
@[simp] theorem State.setA_cfg (s : State) (v : BitVec 8) : (s.setA v).cfg = s.cfg := rfl
@[simp] theorem State.setA_trace (s : State) (v : BitVec 8) : (s.setA v).trace = s.trace := rfl
@[simp] theorem State.setA_busy (s : State) (v : BitVec 8) : (s.setA v).busy = s.busy := rfl
@[simp] theorem State.setA_tracing (s : State) (v : BitVec 8) : (s.setA v).tracing = s.tracing := rfl
@[simp] theorem State.setA_work (s : State) (v : BitVec 8) : (s.setA v).work = s.work := rfl
@[simp] theorem State.setA_pending (s : State) (v : BitVec 8) : (s.setA v).pending = s.pending := rfl
@[simp] theorem State.setA_answer (s : State) (v : BitVec 8) : (s.setA v).answer = s.answer := rfl
@[simp] theorem State.setA_draws (s : State) (v : BitVec 8) : (s.setA v).draws = s.draws := rfl

/-! ### setB -/

@[simp] theorem State.setB_a (s : State) (v : BitVec 8) : (s.setB v).a = s.a := rfl
@[simp] theorem State.setB_b (s : State) (v : BitVec 8) : (s.setB v).b = v := rfl
@[simp] theorem State.setB_x (s : State) (v : BitVec 8) : (s.setB v).x = s.x := rfl
@[simp] theorem State.setB_e (s : State) (v : BitVec 8) : (s.setB v).e = s.e := rfl
@[simp] theorem State.setB_res (s : State) (v : BitVec 8) : (s.setB v).res = s.res := rfl
@[simp] theorem State.setB_err (s : State) (v : BitVec 8) : (s.setB v).err = s.err := rfl
@[simp] theorem State.setB_cfg (s : State) (v : BitVec 8) : (s.setB v).cfg = s.cfg := rfl
@[simp] theorem State.setB_trace (s : State) (v : BitVec 8) : (s.setB v).trace = s.trace := rfl
@[simp] theorem State.setB_busy (s : State) (v : BitVec 8) : (s.setB v).busy = s.busy := rfl
@[simp] theorem State.setB_tracing (s : State) (v : BitVec 8) : (s.setB v).tracing = s.tracing := rfl
@[simp] theorem State.setB_work (s : State) (v : BitVec 8) : (s.setB v).work = s.work := rfl
@[simp] theorem State.setB_pending (s : State) (v : BitVec 8) : (s.setB v).pending = s.pending := rfl
@[simp] theorem State.setB_answer (s : State) (v : BitVec 8) : (s.setB v).answer = s.answer := rfl
@[simp] theorem State.setB_draws (s : State) (v : BitVec 8) : (s.setB v).draws = s.draws := rfl

/-! ### setX -/

@[simp] theorem State.setX_a (s : State) (v : BitVec 16) : (s.setX v).a = s.a := rfl
@[simp] theorem State.setX_b (s : State) (v : BitVec 16) : (s.setX v).b = s.b := rfl
@[simp] theorem State.setX_x (s : State) (v : BitVec 16) : (s.setX v).x = v := rfl
@[simp] theorem State.setX_e (s : State) (v : BitVec 16) : (s.setX v).e = s.e := rfl
@[simp] theorem State.setX_res (s : State) (v : BitVec 16) : (s.setX v).res = s.res := rfl
@[simp] theorem State.setX_err (s : State) (v : BitVec 16) : (s.setX v).err = s.err := rfl
@[simp] theorem State.setX_cfg (s : State) (v : BitVec 16) : (s.setX v).cfg = s.cfg := rfl
@[simp] theorem State.setX_trace (s : State) (v : BitVec 16) : (s.setX v).trace = s.trace := rfl
@[simp] theorem State.setX_busy (s : State) (v : BitVec 16) : (s.setX v).busy = s.busy := rfl
@[simp] theorem State.setX_tracing (s : State) (v : BitVec 16) : (s.setX v).tracing = s.tracing := rfl
@[simp] theorem State.setX_work (s : State) (v : BitVec 16) : (s.setX v).work = s.work := rfl
@[simp] theorem State.setX_pending (s : State) (v : BitVec 16) : (s.setX v).pending = s.pending := rfl
@[simp] theorem State.setX_answer (s : State) (v : BitVec 16) : (s.setX v).answer = s.answer := rfl
@[simp] theorem State.setX_draws (s : State) (v : BitVec 16) : (s.setX v).draws = s.draws := rfl

/-! ### setE -/

@[simp] theorem State.setE_a (s : State) (v : BitVec 32) : (s.setE v).a = s.a := rfl
@[simp] theorem State.setE_b (s : State) (v : BitVec 32) : (s.setE v).b = s.b := rfl
@[simp] theorem State.setE_x (s : State) (v : BitVec 32) : (s.setE v).x = s.x := rfl
@[simp] theorem State.setE_e (s : State) (v : BitVec 32) : (s.setE v).e = v := rfl
@[simp] theorem State.setE_res (s : State) (v : BitVec 32) : (s.setE v).res = s.res := rfl
@[simp] theorem State.setE_err (s : State) (v : BitVec 32) : (s.setE v).err = s.err := rfl
@[simp] theorem State.setE_cfg (s : State) (v : BitVec 32) : (s.setE v).cfg = s.cfg := rfl
@[simp] theorem State.setE_trace (s : State) (v : BitVec 32) : (s.setE v).trace = s.trace := rfl
@[simp] theorem State.setE_busy (s : State) (v : BitVec 32) : (s.setE v).busy = s.busy := rfl
@[simp] theorem State.setE_tracing (s : State) (v : BitVec 32) : (s.setE v).tracing = s.tracing := rfl
@[simp] theorem State.setE_work (s : State) (v : BitVec 32) : (s.setE v).work = s.work := rfl
@[simp] theorem State.setE_pending (s : State) (v : BitVec 32) : (s.setE v).pending = s.pending := rfl
@[simp] theorem State.setE_answer (s : State) (v : BitVec 32) : (s.setE v).answer = s.answer := rfl
@[simp] theorem State.setE_draws (s : State) (v : BitVec 32) : (s.setE v).draws = s.draws := rfl

/-! ### setRes -/

@[simp] theorem State.setRes_a (s : State) (v : BitVec 32) : (s.setRes v).a = s.a := rfl
@[simp] theorem State.setRes_b (s : State) (v : BitVec 32) : (s.setRes v).b = s.b := rfl
@[simp] theorem State.setRes_x (s : State) (v : BitVec 32) : (s.setRes v).x = s.x := rfl
@[simp] theorem State.setRes_e (s : State) (v : BitVec 32) : (s.setRes v).e = s.e := rfl
@[simp] theorem State.setRes_res (s : State) (v : BitVec 32) : (s.setRes v).res = v := rfl
@[simp] theorem State.setRes_err (s : State) (v : BitVec 32) : (s.setRes v).err = s.err := rfl
@[simp] theorem State.setRes_cfg (s : State) (v : BitVec 32) : (s.setRes v).cfg = s.cfg := rfl
@[simp] theorem State.setRes_trace (s : State) (v : BitVec 32) : (s.setRes v).trace = s.trace := rfl
@[simp] theorem State.setRes_busy (s : State) (v : BitVec 32) : (s.setRes v).busy = s.busy := rfl
@[simp] theorem State.setRes_tracing (s : State) (v : BitVec 32) : (s.setRes v).tracing = s.tracing := rfl
@[simp] theorem State.setRes_work (s : State) (v : BitVec 32) : (s.setRes v).work = s.work := rfl
@[simp] theorem State.setRes_pending (s : State) (v : BitVec 32) : (s.setRes v).pending = s.pending := rfl
@[simp] theorem State.setRes_answer (s : State) (v : BitVec 32) : (s.setRes v).answer = s.answer := rfl
@[simp] theorem State.setRes_draws (s : State) (v : BitVec 32) : (s.setRes v).draws = s.draws := rfl

/-! ### setErr -/

@[simp] theorem State.setErr_a (s : State) (v : ErrField) : (s.setErr v).a = s.a := rfl
@[simp] theorem State.setErr_b (s : State) (v : ErrField) : (s.setErr v).b = s.b := rfl
@[simp] theorem State.setErr_x (s : State) (v : ErrField) : (s.setErr v).x = s.x := rfl
@[simp] theorem State.setErr_e (s : State) (v : ErrField) : (s.setErr v).e = s.e := rfl
@[simp] theorem State.setErr_res (s : State) (v : ErrField) : (s.setErr v).res = s.res := rfl
@[simp] theorem State.setErr_err (s : State) (v : ErrField) : (s.setErr v).err = v := rfl
@[simp] theorem State.setErr_cfg (s : State) (v : ErrField) : (s.setErr v).cfg = s.cfg := rfl
@[simp] theorem State.setErr_trace (s : State) (v : ErrField) : (s.setErr v).trace = s.trace := rfl
@[simp] theorem State.setErr_busy (s : State) (v : ErrField) : (s.setErr v).busy = s.busy := rfl
@[simp] theorem State.setErr_tracing (s : State) (v : ErrField) : (s.setErr v).tracing = s.tracing := rfl
@[simp] theorem State.setErr_work (s : State) (v : ErrField) : (s.setErr v).work = s.work := rfl
@[simp] theorem State.setErr_pending (s : State) (v : ErrField) : (s.setErr v).pending = s.pending := rfl
@[simp] theorem State.setErr_answer (s : State) (v : ErrField) : (s.setErr v).answer = s.answer := rfl
@[simp] theorem State.setErr_draws (s : State) (v : ErrField) : (s.setErr v).draws = s.draws := rfl

/-! ### setCfg -/

@[simp] theorem State.setCfg_a (s : State) (v : FieldCfg) : (s.setCfg v).a = s.a := rfl
@[simp] theorem State.setCfg_b (s : State) (v : FieldCfg) : (s.setCfg v).b = s.b := rfl
@[simp] theorem State.setCfg_x (s : State) (v : FieldCfg) : (s.setCfg v).x = s.x := rfl
@[simp] theorem State.setCfg_e (s : State) (v : FieldCfg) : (s.setCfg v).e = s.e := rfl
@[simp] theorem State.setCfg_res (s : State) (v : FieldCfg) : (s.setCfg v).res = s.res := rfl
@[simp] theorem State.setCfg_err (s : State) (v : FieldCfg) : (s.setCfg v).err = s.err := rfl
@[simp] theorem State.setCfg_cfg (s : State) (v : FieldCfg) : (s.setCfg v).cfg = v := rfl
@[simp] theorem State.setCfg_trace (s : State) (v : FieldCfg) : (s.setCfg v).trace = s.trace := rfl
@[simp] theorem State.setCfg_busy (s : State) (v : FieldCfg) : (s.setCfg v).busy = s.busy := rfl
@[simp] theorem State.setCfg_tracing (s : State) (v : FieldCfg) : (s.setCfg v).tracing = s.tracing := rfl
@[simp] theorem State.setCfg_work (s : State) (v : FieldCfg) : (s.setCfg v).work = s.work := rfl
@[simp] theorem State.setCfg_pending (s : State) (v : FieldCfg) : (s.setCfg v).pending = s.pending := rfl
@[simp] theorem State.setCfg_answer (s : State) (v : FieldCfg) : (s.setCfg v).answer = s.answer := rfl
@[simp] theorem State.setCfg_draws (s : State) (v : FieldCfg) : (s.setCfg v).draws = s.draws := rfl

/-! ### setAnswer -/

@[simp] theorem State.setAnswer_a (s : State) (v : Answer) : (s.setAnswer v).a = s.a := rfl
@[simp] theorem State.setAnswer_b (s : State) (v : Answer) : (s.setAnswer v).b = s.b := rfl
@[simp] theorem State.setAnswer_x (s : State) (v : Answer) : (s.setAnswer v).x = s.x := rfl
@[simp] theorem State.setAnswer_e (s : State) (v : Answer) : (s.setAnswer v).e = s.e := rfl
@[simp] theorem State.setAnswer_res (s : State) (v : Answer) : (s.setAnswer v).res = s.res := rfl
@[simp] theorem State.setAnswer_err (s : State) (v : Answer) : (s.setAnswer v).err = s.err := rfl
@[simp] theorem State.setAnswer_cfg (s : State) (v : Answer) : (s.setAnswer v).cfg = s.cfg := rfl
@[simp] theorem State.setAnswer_trace (s : State) (v : Answer) : (s.setAnswer v).trace = s.trace := rfl
@[simp] theorem State.setAnswer_busy (s : State) (v : Answer) : (s.setAnswer v).busy = s.busy := rfl
@[simp] theorem State.setAnswer_tracing (s : State) (v : Answer) : (s.setAnswer v).tracing = s.tracing := rfl
@[simp] theorem State.setAnswer_work (s : State) (v : Answer) : (s.setAnswer v).work = s.work := rfl
@[simp] theorem State.setAnswer_pending (s : State) (v : Answer) : (s.setAnswer v).pending = s.pending := rfl
@[simp] theorem State.setAnswer_answer (s : State) (v : Answer) : (s.setAnswer v).answer = v := rfl
@[simp] theorem State.setAnswer_draws (s : State) (v : Answer) : (s.setAnswer v).draws = s.draws := rfl

/-! ### setPending -/

@[simp] theorem State.setPending_a (s : State) (v : List Input) : (s.setPending v).a = s.a := rfl
@[simp] theorem State.setPending_b (s : State) (v : List Input) : (s.setPending v).b = s.b := rfl
@[simp] theorem State.setPending_x (s : State) (v : List Input) : (s.setPending v).x = s.x := rfl
@[simp] theorem State.setPending_e (s : State) (v : List Input) : (s.setPending v).e = s.e := rfl
@[simp] theorem State.setPending_res (s : State) (v : List Input) : (s.setPending v).res = s.res := rfl
@[simp] theorem State.setPending_err (s : State) (v : List Input) : (s.setPending v).err = s.err := rfl
@[simp] theorem State.setPending_cfg (s : State) (v : List Input) : (s.setPending v).cfg = s.cfg := rfl
@[simp] theorem State.setPending_trace (s : State) (v : List Input) : (s.setPending v).trace = s.trace := rfl
@[simp] theorem State.setPending_busy (s : State) (v : List Input) : (s.setPending v).busy = s.busy := rfl
@[simp] theorem State.setPending_tracing (s : State) (v : List Input) : (s.setPending v).tracing = s.tracing := rfl
@[simp] theorem State.setPending_work (s : State) (v : List Input) : (s.setPending v).work = s.work := rfl
@[simp] theorem State.setPending_pending (s : State) (v : List Input) : (s.setPending v).pending = v := rfl
@[simp] theorem State.setPending_answer (s : State) (v : List Input) : (s.setPending v).answer = s.answer := rfl
@[simp] theorem State.setPending_draws (s : State) (v : List Input) : (s.setPending v).draws = s.draws := rfl

/-! ### beginCommand -/

@[simp] theorem State.beginCommand_a (s : State) (t : Bool) : (s.beginCommand t).a = s.a := rfl
@[simp] theorem State.beginCommand_b (s : State) (t : Bool) : (s.beginCommand t).b = s.b := rfl
@[simp] theorem State.beginCommand_x (s : State) (t : Bool) : (s.beginCommand t).x = s.x := rfl
@[simp] theorem State.beginCommand_e (s : State) (t : Bool) : (s.beginCommand t).e = s.e := rfl
@[simp] theorem State.beginCommand_res (s : State) (t : Bool) : (s.beginCommand t).res = s.res := rfl
@[simp] theorem State.beginCommand_err (s : State) (t : Bool) : (s.beginCommand t).err = s.err := rfl
@[simp] theorem State.beginCommand_cfg (s : State) (t : Bool) : (s.beginCommand t).cfg = s.cfg := rfl
@[simp] theorem State.beginCommand_trace (s : State) (t : Bool) : (s.beginCommand t).trace = [] := rfl
@[simp] theorem State.beginCommand_busy (s : State) (t : Bool) : (s.beginCommand t).busy = true := rfl
@[simp] theorem State.beginCommand_tracing (s : State) (t : Bool) : (s.beginCommand t).tracing = t := rfl
@[simp] theorem State.beginCommand_work (s : State) (t : Bool) : (s.beginCommand t).work = s.work := rfl
@[simp] theorem State.beginCommand_pending (s : State) (t : Bool) : (s.beginCommand t).pending = s.pending := rfl
@[simp] theorem State.beginCommand_answer (s : State) (t : Bool) : (s.beginCommand t).answer = s.answer := rfl
@[simp] theorem State.beginCommand_draws (s : State) (t : Bool) : (s.beginCommand t).draws = s.draws := rfl

/-! ### endCommand -/

@[simp] theorem State.endCommand_a (s : State) : s.endCommand.a = s.a := rfl
@[simp] theorem State.endCommand_b (s : State) : s.endCommand.b = s.b := rfl
@[simp] theorem State.endCommand_x (s : State) : s.endCommand.x = s.x := rfl
@[simp] theorem State.endCommand_e (s : State) : s.endCommand.e = s.e := rfl
@[simp] theorem State.endCommand_res (s : State) : s.endCommand.res = s.res := rfl
@[simp] theorem State.endCommand_err (s : State) : s.endCommand.err = s.err := rfl
@[simp] theorem State.endCommand_cfg (s : State) : s.endCommand.cfg = s.cfg := rfl
@[simp] theorem State.endCommand_trace (s : State) : s.endCommand.trace = s.trace := rfl
@[simp] theorem State.endCommand_busy (s : State) : s.endCommand.busy = false := rfl
@[simp] theorem State.endCommand_tracing (s : State) : s.endCommand.tracing = false := rfl
@[simp] theorem State.endCommand_work (s : State) : s.endCommand.work = freeWorking s.draws := rfl
@[simp] theorem State.endCommand_pending (s : State) : s.endCommand.pending = s.pending := rfl
@[simp] theorem State.endCommand_answer (s : State) : s.endCommand.answer = s.answer := rfl
@[simp] theorem State.endCommand_draws (s : State) : s.endCommand.draws = s.draws + 1 := rfl

/-! ### takeError -/

@[simp] theorem State.takeError_a (s : State) (e : CoreError) : (s.takeError e).a = s.a := rfl
@[simp] theorem State.takeError_b (s : State) (e : CoreError) : (s.takeError e).b = s.b := rfl
@[simp] theorem State.takeError_x (s : State) (e : CoreError) : (s.takeError e).x = s.x := rfl
@[simp] theorem State.takeError_e (s : State) (e : CoreError) : (s.takeError e).e = s.e := rfl
@[simp] theorem State.takeError_res (s : State) (e : CoreError) : (s.takeError e).res = s.res := rfl
@[simp] theorem State.takeError_err (s : State) (e : CoreError) : (s.takeError e).err = .raised e := rfl
@[simp] theorem State.takeError_cfg (s : State) (e : CoreError) : (s.takeError e).cfg = s.cfg := rfl
@[simp] theorem State.takeError_trace (s : State) (e : CoreError) : (s.takeError e).trace = s.trace := rfl
@[simp] theorem State.takeError_busy (s : State) (e : CoreError) : (s.takeError e).busy = s.busy := rfl
@[simp] theorem State.takeError_tracing (s : State) (e : CoreError) : (s.takeError e).tracing = s.tracing := rfl
@[simp] theorem State.takeError_work (s : State) (e : CoreError) : (s.takeError e).work = s.work := rfl
@[simp] theorem State.takeError_pending (s : State) (e : CoreError) : (s.takeError e).pending = s.pending := rfl
@[simp] theorem State.takeError_answer (s : State) (e : CoreError) : (s.takeError e).answer = s.answer := rfl
@[simp] theorem State.takeError_draws (s : State) (e : CoreError) : (s.takeError e).draws = s.draws := rfl

/-! ### takeEffect writeRes -/

@[simp] theorem State.takeEffect_writeRes_a (s : State) (v : BitVec 32) : (s.takeEffect (.writeRes v)).a = s.a := rfl
@[simp] theorem State.takeEffect_writeRes_b (s : State) (v : BitVec 32) : (s.takeEffect (.writeRes v)).b = s.b := rfl
@[simp] theorem State.takeEffect_writeRes_x (s : State) (v : BitVec 32) : (s.takeEffect (.writeRes v)).x = s.x := rfl
@[simp] theorem State.takeEffect_writeRes_e (s : State) (v : BitVec 32) : (s.takeEffect (.writeRes v)).e = s.e := rfl
@[simp] theorem State.takeEffect_writeRes_res (s : State) (v : BitVec 32) : (s.takeEffect (.writeRes v)).res = v := rfl
@[simp] theorem State.takeEffect_writeRes_err (s : State) (v : BitVec 32) : (s.takeEffect (.writeRes v)).err = .clear := rfl
@[simp] theorem State.takeEffect_writeRes_cfg (s : State) (v : BitVec 32) : (s.takeEffect (.writeRes v)).cfg = s.cfg := rfl
@[simp] theorem State.takeEffect_writeRes_trace (s : State) (v : BitVec 32) : (s.takeEffect (.writeRes v)).trace = s.trace := rfl
@[simp] theorem State.takeEffect_writeRes_busy (s : State) (v : BitVec 32) : (s.takeEffect (.writeRes v)).busy = s.busy := rfl
@[simp] theorem State.takeEffect_writeRes_tracing (s : State) (v : BitVec 32) : (s.takeEffect (.writeRes v)).tracing = s.tracing := rfl
@[simp] theorem State.takeEffect_writeRes_work (s : State) (v : BitVec 32) : (s.takeEffect (.writeRes v)).work = s.work := rfl
@[simp] theorem State.takeEffect_writeRes_pending (s : State) (v : BitVec 32) : (s.takeEffect (.writeRes v)).pending = s.pending := rfl
@[simp] theorem State.takeEffect_writeRes_answer (s : State) (v : BitVec 32) : (s.takeEffect (.writeRes v)).answer = s.answer := rfl
@[simp] theorem State.takeEffect_writeRes_draws (s : State) (v : BitVec 32) : (s.takeEffect (.writeRes v)).draws = s.draws := rfl

/-! ### takeEffect writeCfg -/

@[simp] theorem State.takeEffect_writeCfg_a (s : State) (v : FieldCfg) : (s.takeEffect (.writeCfg v)).a = s.a := rfl
@[simp] theorem State.takeEffect_writeCfg_b (s : State) (v : FieldCfg) : (s.takeEffect (.writeCfg v)).b = s.b := rfl
@[simp] theorem State.takeEffect_writeCfg_x (s : State) (v : FieldCfg) : (s.takeEffect (.writeCfg v)).x = s.x := rfl
@[simp] theorem State.takeEffect_writeCfg_e (s : State) (v : FieldCfg) : (s.takeEffect (.writeCfg v)).e = s.e := rfl
@[simp] theorem State.takeEffect_writeCfg_res (s : State) (v : FieldCfg) : (s.takeEffect (.writeCfg v)).res = s.res := rfl
@[simp] theorem State.takeEffect_writeCfg_err (s : State) (v : FieldCfg) : (s.takeEffect (.writeCfg v)).err = .clear := rfl
@[simp] theorem State.takeEffect_writeCfg_cfg (s : State) (v : FieldCfg) : (s.takeEffect (.writeCfg v)).cfg = v := rfl
@[simp] theorem State.takeEffect_writeCfg_trace (s : State) (v : FieldCfg) : (s.takeEffect (.writeCfg v)).trace = s.trace := rfl
@[simp] theorem State.takeEffect_writeCfg_busy (s : State) (v : FieldCfg) : (s.takeEffect (.writeCfg v)).busy = s.busy := rfl
@[simp] theorem State.takeEffect_writeCfg_tracing (s : State) (v : FieldCfg) : (s.takeEffect (.writeCfg v)).tracing = s.tracing := rfl
@[simp] theorem State.takeEffect_writeCfg_work (s : State) (v : FieldCfg) : (s.takeEffect (.writeCfg v)).work = s.work := rfl
@[simp] theorem State.takeEffect_writeCfg_pending (s : State) (v : FieldCfg) : (s.takeEffect (.writeCfg v)).pending = s.pending := rfl
@[simp] theorem State.takeEffect_writeCfg_answer (s : State) (v : FieldCfg) : (s.takeEffect (.writeCfg v)).answer = s.answer := rfl
@[simp] theorem State.takeEffect_writeCfg_draws (s : State) (v : FieldCfg) : (s.takeEffect (.writeCfg v)).draws = s.draws := rfl

/-! ### emit and emitAll: only the trace changes -/

@[simp] theorem State.emit_a (s : State) (rec : StepRecord) : (s.emit rec).a = s.a := by
  unfold State.emit; split <;> rfl
@[simp] theorem State.emit_b (s : State) (rec : StepRecord) : (s.emit rec).b = s.b := by
  unfold State.emit; split <;> rfl
@[simp] theorem State.emit_x (s : State) (rec : StepRecord) : (s.emit rec).x = s.x := by
  unfold State.emit; split <;> rfl
@[simp] theorem State.emit_e (s : State) (rec : StepRecord) : (s.emit rec).e = s.e := by
  unfold State.emit; split <;> rfl
@[simp] theorem State.emit_res (s : State) (rec : StepRecord) : (s.emit rec).res = s.res := by
  unfold State.emit; split <;> rfl
@[simp] theorem State.emit_err (s : State) (rec : StepRecord) : (s.emit rec).err = s.err := by
  unfold State.emit; split <;> rfl
@[simp] theorem State.emit_cfg (s : State) (rec : StepRecord) : (s.emit rec).cfg = s.cfg := by
  unfold State.emit; split <;> rfl
@[simp] theorem State.emit_busy (s : State) (rec : StepRecord) : (s.emit rec).busy = s.busy := by
  unfold State.emit; split <;> rfl
@[simp] theorem State.emit_tracing (s : State) (rec : StepRecord) : (s.emit rec).tracing = s.tracing := by
  unfold State.emit; split <;> rfl
@[simp] theorem State.emit_work (s : State) (rec : StepRecord) : (s.emit rec).work = s.work := by
  unfold State.emit; split <;> rfl
@[simp] theorem State.emit_pending (s : State) (rec : StepRecord) : (s.emit rec).pending = s.pending := by
  unfold State.emit; split <;> rfl
@[simp] theorem State.emit_answer (s : State) (rec : StepRecord) : (s.emit rec).answer = s.answer := by
  unfold State.emit; split <;> rfl
@[simp] theorem State.emit_draws (s : State) (rec : StepRecord) : (s.emit rec).draws = s.draws := by
  unfold State.emit; split <;> rfl

@[simp] theorem State.emitAll_a (s : State) (recs : List StepRecord) : (s.emitAll recs).a = s.a := by
  induction recs generalizing s with
  | nil => rfl
  | cons rec rest ih => simp [State.emitAll, ih]
@[simp] theorem State.emitAll_b (s : State) (recs : List StepRecord) : (s.emitAll recs).b = s.b := by
  induction recs generalizing s with
  | nil => rfl
  | cons rec rest ih => simp [State.emitAll, ih]
@[simp] theorem State.emitAll_x (s : State) (recs : List StepRecord) : (s.emitAll recs).x = s.x := by
  induction recs generalizing s with
  | nil => rfl
  | cons rec rest ih => simp [State.emitAll, ih]
@[simp] theorem State.emitAll_e (s : State) (recs : List StepRecord) : (s.emitAll recs).e = s.e := by
  induction recs generalizing s with
  | nil => rfl
  | cons rec rest ih => simp [State.emitAll, ih]
@[simp] theorem State.emitAll_res (s : State) (recs : List StepRecord) : (s.emitAll recs).res = s.res := by
  induction recs generalizing s with
  | nil => rfl
  | cons rec rest ih => simp [State.emitAll, ih]
@[simp] theorem State.emitAll_err (s : State) (recs : List StepRecord) : (s.emitAll recs).err = s.err := by
  induction recs generalizing s with
  | nil => rfl
  | cons rec rest ih => simp [State.emitAll, ih]
@[simp] theorem State.emitAll_cfg (s : State) (recs : List StepRecord) : (s.emitAll recs).cfg = s.cfg := by
  induction recs generalizing s with
  | nil => rfl
  | cons rec rest ih => simp [State.emitAll, ih]
@[simp] theorem State.emitAll_busy (s : State) (recs : List StepRecord) : (s.emitAll recs).busy = s.busy := by
  induction recs generalizing s with
  | nil => rfl
  | cons rec rest ih => simp [State.emitAll, ih]
@[simp] theorem State.emitAll_tracing (s : State) (recs : List StepRecord) : (s.emitAll recs).tracing = s.tracing := by
  induction recs generalizing s with
  | nil => rfl
  | cons rec rest ih => simp [State.emitAll, ih]
@[simp] theorem State.emitAll_work (s : State) (recs : List StepRecord) : (s.emitAll recs).work = s.work := by
  induction recs generalizing s with
  | nil => rfl
  | cons rec rest ih => simp [State.emitAll, ih]
@[simp] theorem State.emitAll_pending (s : State) (recs : List StepRecord) : (s.emitAll recs).pending = s.pending := by
  induction recs generalizing s with
  | nil => rfl
  | cons rec rest ih => simp [State.emitAll, ih]
@[simp] theorem State.emitAll_answer (s : State) (recs : List StepRecord) : (s.emitAll recs).answer = s.answer := by
  induction recs generalizing s with
  | nil => rfl
  | cons rec rest ih => simp [State.emitAll, ih]
@[simp] theorem State.emitAll_draws (s : State) (recs : List StepRecord) : (s.emitAll recs).draws = s.draws := by
  induction recs generalizing s with
  | nil => rfl
  | cons rec rest ih => simp [State.emitAll, ih]

end Sys2Proof.Machine
end

