-- ==== Sys2Proof/Laws/Ops.lean ====
section
/-! SUPPORT. What each shared operation can do, said once: the recorder, the composition of datapath calls, the
command frame, the bus rules and the step. -/

namespace Sys2Proof.Machine

/-! ### The recorder -/

theorem State.emit_trace (s : State) (rec : StepRecord) (room : s.trace.length < Config.traceDepth) :
    (s.emit rec).trace = s.trace ++ [rec] := by
  simp [State.emit, State.traceCount, room]

/-- Records that fit are all appended, in order (47_step_recorder.md R98, R100). -/
theorem State.emitAll_trace (s : State) (recs : List StepRecord)
    (room : s.trace.length + recs.length ≤ Config.traceDepth) :
    (s.emitAll recs).trace = s.trace ++ recs := by
  induction recs generalizing s with
  | nil => simp [State.emitAll]
  | cons rec rest ih =>
    simp only [List.length_cons] at room
    have here : (s.emit rec).trace = s.trace ++ [rec] := s.emit_trace rec (by omega)
    rw [State.emitAll, ih (s.emit rec) (by rw [here]; simp; omega), here]
    simp

/-- The recorder changes the trace and nothing else. -/
theorem State.emitAll_only_trace (s : State) (recs : List StepRecord) :
    s.emitAll recs = { s with trace := (s.emitAll recs).trace } := by
  rw [State.mk.injEq]; simp

/-- What is appended depends on the trace alone. -/
theorem State.emitAll_trace_congr {s s' : State} (same : s.trace = s'.trace) (recs : List StepRecord) :
    (s.emitAll recs).trace = (s'.emitAll recs).trace := by
  induction recs generalizing s s' with
  | nil => exact same
  | cons rec rest ih =>
    refine ih ?_
    unfold State.emit State.traceCount
    rw [same]
    split
    · rfl
    · exact same

/-- Records that fit change the trace and nothing else. -/
theorem State.emitAll_eq (s : State) (recs : List StepRecord)
    (room : s.trace.length + recs.length ≤ Config.traceDepth) :
    s.emitAll recs = { s with trace := s.trace ++ recs } := by
  rw [s.emitAll_only_trace recs, State.emitAll_trace s recs room]

/-- The trace buffer never holds more than it has room for (10_state.md R26). -/
theorem State.emitAll_traceCount_le (s : State) (recs : List StepRecord)
    (fits : s.traceCount ≤ Config.traceDepth) : (s.emitAll recs).traceCount ≤ Config.traceDepth := by
  induction recs generalizing s with
  | nil => exact fits
  | cons rec rest ih =>
    refine ih (s.emit rec) ?_
    unfold State.emit
    split
    · next room => simp only [State.traceCount, List.length_append, List.length_singleton] at room ⊢; omega
    · exact fits

/-! ### The composition of datapath calls -/

@[simp] theorem Run.bind_value {α β : Type} (recs : List StepRecord) (v : α) (next : α → Run β) :
    Run.bind { records := recs, result := .value v } next
      = { records := recs ++ (next v).records, result := (next v).result } := rfl

@[simp] theorem Run.bind_error {α β : Type} (recs : List StepRecord) (e : CoreError) (next : α → Run β) :
    Run.bind { records := recs, result := .error e } next = { records := recs, result := .error e } := rfl

@[simp] theorem Run.bind_neverEnds {α β : Type} (recs : List StepRecord) (next : α → Run β) :
    Run.bind { records := recs, result := .neverEnds } next = { records := recs, result := .neverEnds } := rfl

@[simp] theorem Run.pure_bind {α β : Type} (v : α) (next : α → Run β) : (Run.pure v).bind next = next v := rfl

@[simp] theorem Run.raise_bind {α β : Type} (e : CoreError) (next : α → Run β) :
    (Run.raise e : Run α).bind next = Run.raise e := rfl

@[simp] theorem Run.emit_false (rec : StepRecord) : Run.emit false rec = Run.pure () := rfl

@[simp] theorem Run.emit_true_bind {β : Type} (rec : StepRecord) (next : Unit → Run β) :
    (Run.emit true rec).bind next = { records := rec :: (next ()).records, result := (next ()).result } := rfl

/-- The result of a composition depends only on the first result and the second call's result. -/
theorem Run.bind_result {α β : Type} (first : Run α) (next : α → Run β) :
    (first.bind next).result = match first.result with
      | .value v => (next v).result
      | .error e => .error e
      | .neverEnds => .neverEnds := by
  rcases first with ⟨recs, _ | _ | _⟩ <;> rfl

/-- If a composition has a value, both calls had one. -/
theorem Run.bind_value_cases {α β : Type} {first : Run α} {next : α → Run β} {w : β}
    (h : (first.bind next).result = .value w) :
    ∃ v, first.result = .value v ∧ (next v).result = .value w := by
  rcases first with ⟨recs, v | _ | _⟩
  · exact ⟨v, rfl, h⟩
  · simp at h
  · simp at h

@[simp] theorem Run.toRes_mk (recs : List StepRecord) (result : Result Nat) :
    Run.toRes { records := recs, result := result } = match result with
      | .value v => { records := recs, result := .value (.writeRes (elementResult v)) }
      | .error e => { records := recs, result := .error e }
      | .neverEnds => { records := recs, result := .neverEnds } := by
  cases result <;> simp [Run.toRes, Run.pure]

/-! ### The command frame -/

/-- The frame, for a body that has a value (60_exceptions.md R103). -/
theorem frame_of_value {t : Bool} {body : State → Run Effect} {s : State} {recs : List StepRecord} {eff : Effect}
    (h : body (s.beginCommand t) = { records := recs, result := .value eff }) :
    frame t body s = .next (((s.beginCommand t).emitAll recs).takeEffect eff).endCommand := by
  simp [frame, h, State.finish]

/-- The frame, for a body that raises an error (60_exceptions.md R103, R104). -/
theorem frame_of_error {t : Bool} {body : State → Run Effect} {s : State} {recs : List StepRecord} {e : CoreError}
    (h : body (s.beginCommand t) = { records := recs, result := .error e }) :
    frame t body s = .next (((s.beginCommand t).emitAll recs).takeError e).endCommand := by
  simp [frame, h, State.finish]

/-- The frame, for a body that never ends. -/
theorem frame_of_neverEnds {t : Bool} {body : State → Run Effect} {s : State} {recs : List StepRecord}
    (h : body (s.beginCommand t) = { records := recs, result := .neverEnds }) :
    frame t body s = .fault .commandNeverCompletes := by
  simp [frame, h, State.finish]

/-- The whole outcome of the frame, by the body's result (60_exceptions.md R103); the trace holds the records that
fit. -/
theorem frame_eq (t : Bool) (body : State → Run Effect) (s : State) :
    frame t body s = match (body (s.beginCommand t)).result with
      | .value (.writeRes v) => .next { commandDone s .clear
          ((s.beginCommand t).emitAll (body (s.beginCommand t)).records).trace with res := v }
      | .value (.writeCfg c) => .next { commandDone s .clear
          ((s.beginCommand t).emitAll (body (s.beginCommand t)).records).trace with cfg := c }
      | .error e => .next (commandDone s (.raised e)
          ((s.beginCommand t).emitAll (body (s.beginCommand t)).records).trace)
      | .neverEnds => .fault .commandNeverCompletes := by
  unfold frame
  rw [(s.beginCommand t).emitAll_only_trace]
  rcases (body (s.beginCommand t)).result with (v | c) | e | _ <;> rfl

/-- The whole next state of a command that writes RES. -/
theorem frame_writes_res {t : Bool} {body : State → Run Effect} {s : State} {recs : List StepRecord}
    {v : BitVec 32} (h : body (s.beginCommand t) = { records := recs, result := .value (.writeRes v) })
    (room : recs.length ≤ Config.traceDepth) :
    frame t body s = .next { commandDone s .clear recs with res := v } := by
  rw [frame_of_value h, State.emitAll_eq _ _ (by simpa using room)]
  rfl

/-- The whole next state of a command that writes CFG. -/
theorem frame_writes_cfg {t : Bool} {body : State → Run Effect} {s : State} {recs : List StepRecord}
    {c : FieldCfg} (h : body (s.beginCommand t) = { records := recs, result := .value (.writeCfg c) })
    (room : recs.length ≤ Config.traceDepth) :
    frame t body s = .next { commandDone s .clear recs with cfg := c } := by
  rw [frame_of_value h, State.emitAll_eq _ _ (by simpa using room)]
  rfl

/-- The whole next state of a command that raises an error. -/
theorem frame_raises {t : Bool} {body : State → Run Effect} {s : State} {recs : List StepRecord}
    {e : CoreError} (h : body (s.beginCommand t) = { records := recs, result := .error e })
    (room : recs.length ≤ Config.traceDepth) :
    frame t body s = .next (commandDone s (.raised e) recs) := by
  rw [frame_of_error h, State.emitAll_eq _ _ (by simpa using room)]
  rfl

/-- Everything a legal command can do, whatever its body (60_exceptions.md R103): it writes RES, or CFG, or an
error, or it never ends. -/
theorem frame_cases (t : Bool) (body : State → Run Effect) (s : State) :
    (∃ recs v, body (s.beginCommand t) = { records := recs, result := .value (.writeRes v) } ∧
      frame t body s = .next ((((s.beginCommand t).emitAll recs).setRes v).setErr .clear).endCommand) ∨
    (∃ recs c, body (s.beginCommand t) = { records := recs, result := .value (.writeCfg c) } ∧
      frame t body s = .next ((((s.beginCommand t).emitAll recs).setCfg c).setErr .clear).endCommand) ∨
    (∃ recs e, body (s.beginCommand t) = { records := recs, result := .error e } ∧
      frame t body s = .next (((s.beginCommand t).emitAll recs).setErr (.raised e)).endCommand) ∨
    (∃ recs, body (s.beginCommand t) = { records := recs, result := .neverEnds } ∧
      frame t body s = .fault .commandNeverCompletes) := by
  rcases h : body (s.beginCommand t) with ⟨recs, (v | c) | e | _⟩
  · exact .inl ⟨recs, v, rfl, frame_of_value h⟩
  · exact .inr (.inl ⟨recs, c, rfl, frame_of_value h⟩)
  · exact .inr (.inr (.inl ⟨recs, e, rfl, frame_of_error h⟩))
  · exact .inr (.inr (.inr ⟨recs, rfl, frame_of_neverEnds h⟩))

/-! ### The bus rules and the step -/

/-- Everything a host access can do (20_memory.md R34 to R43). -/
theorem performAccess_cases (acc : Access) (s : State) :
    (∃ c, acc.target = .busError c ∧ performAccess acc s = .fault (.busError c)) ∨
    (∃ width off r, acc = .read width off ∧ acc.target = .reg r ∧
      performAccess acc s = .next (s.setAnswer (.data (s.readReg r)))) ∨
    (∃ width off v, acc = .write width off v ∧ acc.target = .reg .cmd ∧
      performAccess acc s = runCommandWord v (s.setAnswer .written)) ∨
    (∃ width off v r, acc = .write width off v ∧ acc.target = .reg r ∧ r ≠ .cmd ∧
      performAccess acc s = .next ((s.setAnswer .written).writeReg v r)) := by
  rcases target : acc.target with r | c
  · rcases acc with ⟨width, off⟩ | ⟨width, off, v⟩
    · exact .inr (.inl ⟨width, off, r, rfl, rfl, by simp [performAccess, target]⟩)
    · by_cases isCmd : r = .cmd
      · subst isCmd
        exact .inr (.inr (.inl ⟨width, off, v, rfl, rfl, by simp [performAccess, target]⟩))
      · exact .inr (.inr (.inr ⟨width, off, v, r, rfl, rfl, isCmd, by simp [performAccess, target, isCmd]⟩))
  · exact .inl ⟨c, rfl, by simp [performAccess, target]⟩

/-- Everything a step can do (20_memory.md R44, R45, 70_reset_and_hazards.md R113, R119). -/
theorem step_cases (s : State) :
    (s.pending = [] ∧ step s = .next s) ∨
    (∃ acc rest, s.pending = .access acc :: rest ∧ s.busy = true ∧ step s = .next s) ∨
    (∃ acc rest, s.pending = .access acc :: rest ∧ s.busy = false ∧
      step s = performAccess acc (s.setPending rest)) ∨
    (∃ rest, s.pending = .reset :: rest ∧ step s = .next (s.setPending rest).platformReset) ∨
    (∃ w rest, s.pending = .resetDuring w :: rest ∧
      step s = .next (s.setPending rest).resetDuringCommand) := by
  rcases waiting : s.pending with _ | ⟨acc | _ | w, rest⟩
  · exact .inl ⟨rfl, by simp [step, performNext, waiting]⟩
  · cases running : s.busy
    · exact .inr (.inr (.inl ⟨acc, rest, rfl, rfl, by simp [step, performNext, waiting, running]⟩))
    · exact .inr (.inl ⟨acc, rest, rfl, rfl, by simp [step, performNext, waiting, running]⟩)
  · exact .inr (.inr (.inr (.inl ⟨rest, rfl, by simp [step, performNext, waiting]⟩)))
  · exact .inr (.inr (.inr (.inr ⟨w, rest, rfl, by simp [step, performNext, waiting]⟩)))

/-- Everything a command word can do: a command in its frame, or an illegal command (60_exceptions.md R103). -/
theorem runCommandWord_cases (w : Word) (s : State) :
    (∃ i, decodeWord w = .command i ∧ runCommandWord w s = exec i s) ∨
    (∃ why, decodeWord w = .illegal why ∧ runCommandWord w s = .next (s.setErr (.raised .illegalCommand))) := by
  rcases h : decodeWord w with i | why
  · exact .inl ⟨i, rfl, by simp [runCommandWord, h]⟩
  · exact .inr ⟨why, rfl, by simp [runCommandWord, h, illegalCommand, State.takeError]⟩

end Sys2Proof.Machine
end

