-- ==== Sys2Proof/Laws/Exec.lean ====
section
/-! SUPPORT. exec as one frame around the command's body, and what a body reads and answers. -/

namespace Sys2Proof.Machine

/-- The body of a command: its datapath, without the frame. -/
def commandBody : Instr → State → Run Effect
  | .setcfg _ => setcfgBody
  | .defcfg _ => defcfgBody
  | .deg _ => degBody
  | .add _ => addBody
  | .red _ => redBody
  | .mul _ => mulBody
  | .pow _ => powBody
  | .inv _ => invBody
  | .div _ => divBody

/-- Every command runs in the one frame (60_exceptions.md R103). -/
theorem exec_eq_frame (i : Instr) (s : State) : exec i s = frame i.traced (commandBody i) s := by
  cases i <;> rfl

/-- A body reads A, B, X, E, CFG and the trace setting, and nothing else (10_state.md R29). -/
theorem commandBody_congr (i : Instr) {s s' : State} (a : s.a = s'.a) (b : s.b = s'.b) (x : s.x = s'.x)
    (e : s.e = s'.e) (cfg : s.cfg = s'.cfg) (tracing : s.tracing = s'.tracing) :
    commandBody i s = commandBody i s' := by
  cases i <;>
    simp [commandBody, setcfgBody, defcfgBody, degBody, addBody, redBody, mulBody, powBody, invBody, divBody,
      State.rawA, State.rawX, State.maskedA, State.maskedB, State.exponent, a, b, x, e, cfg, tracing]

/-- A datapath run put into RES writes no CFG. -/
theorem Run.toRes_result_cases (run : Run Nat) :
    (∃ v, run.result = .value v ∧ run.toRes.result = .value (.writeRes (elementResult v))) ∨
    (∃ e, run.result = .error e ∧ run.toRes.result = .error e) ∨
    (run.result = .neverEnds ∧ run.toRes.result = .neverEnds) := by
  rcases run with ⟨recs, v | e | _⟩
  · exact .inl ⟨v, rfl, rfl⟩
  · exact .inr (.inl ⟨e, rfl, rfl⟩)
  · exact .inr (.inr ⟨rfl, rfl⟩)

@[simp] theorem Run.toRes_records (run : Run Nat) : run.toRes.records = run.records := by
  rcases run with ⟨recs, v | e | _⟩ <;> simp [Run.toRes, Run.pure]

/-- What a command leaves is decided by its operands and the state's other fields pass through: a command on a state
with other waiting inputs gives the same outcome with those inputs. -/
theorem exec_with_pending (i : Instr) (s : State) (p : List Input) :
    exec i { s with pending := p } = match exec i s with
      | .next t => .next { t with pending := p }
      | .fault f => .fault f
      | .refused r => .refused r := by
  have body : commandBody i (State.beginCommand { s with pending := p } i.traced)
      = commandBody i (s.beginCommand i.traced) := commandBody_congr i rfl rfl rfl rfl rfl rfl
  have trace := State.emitAll_trace_congr (s := State.beginCommand { s with pending := p } i.traced)
    (s' := s.beginCommand i.traced) rfl (commandBody i (s.beginCommand i.traced)).records
  rw [exec_eq_frame, exec_eq_frame, frame_eq, frame_eq, body, trace]
  rcases (commandBody i (s.beginCommand i.traced)).result with (v | c) | e | _ <;> rfl

end Sys2Proof.Machine
end

