-- ==== Sys2Proof/Laws/PerInstr.lean ====
section
/-! SUPPORT. Statements for all commands, one lemma a constructor. The family OpcodeRow: the word of a command is
legal and belongs to exactly one row of the opcode table, the row of its opcode. -/

namespace Sys2Proof.Laws.OpcodeRow

def Statement (i : Instr) : Prop :=
  legalWord (encode i) = true ∧
    (opcodeTable.filter fun row => row.matchesWord (encode i)).map (fun row => row.pattern)
      = [(opcode i).setWidth 32]

theorem setcfg (t : Bool) : Statement (.setcfg t) := by cases t <;> exact ⟨by decide, by decide⟩
theorem defcfg (t : Bool) : Statement (.defcfg t) := by cases t <;> exact ⟨by decide, by decide⟩
theorem deg (t : Bool) : Statement (.deg t) := by cases t <;> exact ⟨by decide, by decide⟩
theorem add (t : Bool) : Statement (.add t) := by cases t <;> exact ⟨by decide, by decide⟩
theorem red (t : Bool) : Statement (.red t) := by cases t <;> exact ⟨by decide, by decide⟩
theorem mul (t : Bool) : Statement (.mul t) := by cases t <;> exact ⟨by decide, by decide⟩
theorem pow (t : Bool) : Statement (.pow t) := by cases t <;> exact ⟨by decide, by decide⟩
theorem inv (t : Bool) : Statement (.inv t) := by cases t <;> exact ⟨by decide, by decide⟩
theorem div (t : Bool) : Statement (.div t) := by cases t <;> exact ⟨by decide, by decide⟩

end Sys2Proof.Laws.OpcodeRow
end

