-- ==== Sys2Proof/Laws/Poly.lean ====
section
/-! SUPPORT. Small facts of the polynomial functions and of the reducer's loop. -/

namespace Sys2Proof.Machine

@[simp] theorem deg_zero : deg 0 = -1 := rfl

theorem deg_of_ne_zero {p : Nat} (h : p ≠ 0) : deg p = (p.log2 : Int) := by simp [deg, h]

theorem neg_one_le_deg (p : Nat) : -1 ≤ deg p := by unfold deg; split <;> omega

/-- The degree against a power of two, in one direction for both sides (41_primitives.md R70). -/
theorem deg_lt_iff (p n : Nat) : deg p < (n : Int) ↔ p < 2 ^ n := by
  by_cases h : p = 0
  · subst h; simp [deg_zero]; omega
  · rw [deg_of_ne_zero h, ← Nat.log2_lt h]; omega

theorem maskBits_eq_mod (m v : Nat) : maskBits m v = v % 2 ^ m := Nat.and_two_pow_sub_one_eq_mod v m

theorem maskBits_lt (m v : Nat) : maskBits m v < 2 ^ m := by
  rw [maskBits_eq_mod]; exact Nat.mod_lt _ (Nat.two_pow_pos m)

theorem maskBits_of_lt {m v : Nat} (h : v < 2 ^ m) : maskBits m v = v := by
  rw [maskBits_eq_mod, Nat.mod_eq_of_lt h]

/-- The trace setting changes no remainder (47_step_recorder.md R99). -/
theorem reduceLoop_value (on : Bool) (P fuel r : Nat) : (reduceLoop on P fuel r).2 = polyModLoop P fuel r := by
  induction fuel generalizing r with
  | zero => rfl
  | succ fuel ih =>
    unfold reduceLoop polyModLoop
    split
    · rfl
    · exact ih _

/-- With tracing off nothing is recorded (47_step_recorder.md R97). -/
theorem reduceLoop_records_off (P fuel r : Nat) : (reduceLoop false P fuel r).1 = [] := by
  induction fuel generalizing r with
  | zero => rfl
  | succ fuel ih =>
    unfold reduceLoop
    split
    · rfl
    · simpa using ih _

/-- Cancelling the leading term lowers the degree (42_reducer.md R76). -/
theorem cancel_lowers {d r : Nat} (hd : d ≠ 0) (h : deg d ≤ deg r) (n : Nat) (hr : r < 2 ^ (n + 1)) (hn : 2 ^ n ≤ r) :
    r ^^^ (d <<< (deg r - deg d).toNat) < 2 ^ n := by
  have r0 : r ≠ 0 := by have := Nat.two_pow_pos n; omega
  have log_r : r.log2 = n := (Nat.log2_eq_iff r0).mpr ⟨hn, hr⟩
  rw [deg_of_ne_zero hd, deg_of_ne_zero r0] at *
  have hle : d.log2 ≤ n := by omega
  have shift : ((r.log2 : Int) - (d.log2 : Int)).toNat = n - d.log2 := by omega
  rw [shift]
  have lead : (d <<< (n - d.log2)).testBit n = true := by
    rw [Nat.testBit_shiftLeft]
    simp only [decide_eq_true (show n - d.log2 ≤ n by omega), Bool.true_and]
    rw [show n - (n - d.log2) = d.log2 by omega]
    exact Nat.testBit_log2 hd
  have size : d <<< (n - d.log2) < 2 ^ (n + 1) := by
    rw [Nat.shiftLeft_eq]
    calc d * 2 ^ (n - d.log2) < 2 ^ (d.log2 + 1) * 2 ^ (n - d.log2) :=
          Nat.mul_lt_mul_of_pos_right Nat.lt_log2_self (Nat.two_pow_pos _)
      _ = 2 ^ (n + 1) := by rw [← Nat.pow_add]; congr 1; omega
  have r_bit : r.testBit n = true := log_r ▸ Nat.testBit_log2 r0
  refine Nat.lt_pow_two_of_testBit _ fun j hj => ?_
  rw [Nat.testBit_xor]
  rcases Nat.eq_or_lt_of_le hj with rfl | hlt
  · rw [r_bit, lead]; rfl
  · rw [Nat.testBit_lt_two_pow (Nat.lt_of_lt_of_le hr (Nat.pow_le_pow_right (by omega) hlt)),
      Nat.testBit_lt_two_pow (Nat.lt_of_lt_of_le size (Nat.pow_le_pow_right (by omega) hlt))]
    rfl

/-- With as much fuel as `r` has bits the loop ends with a degree below that of `d` (42_reducer.md R76). -/
theorem polyModLoop_deg_lt {d : Nat} (hd : d ≠ 0) (fuel r : Nat) (hr : r < 2 ^ fuel) :
    deg (polyModLoop d fuel r) < deg d := by
  induction fuel generalizing r with
  | zero =>
    have : r = 0 := by simpa using hr
    subst this
    rw [polyModLoop, deg_zero, deg_of_ne_zero hd]; omega
  | succ fuel ih =>
    unfold polyModLoop
    split
    · assumption
    · next h =>
      refine ih _ ?_
      by_cases top : 2 ^ fuel ≤ r
      · exact cancel_lowers hd (by omega) fuel hr top
      · by_cases r0 : r = 0
        · subst r0
          exact absurd h (by rw [deg_zero, deg_of_ne_zero hd]; omega)
        · have lo : 2 ^ r.log2 ≤ r := Nat.log2_self_le r0
          have small := cancel_lowers hd (by omega) r.log2 Nat.lt_log2_self lo
          exact Nat.lt_of_lt_of_le small (by
            have : r.log2 < fuel := (Nat.log2_lt r0).mpr (by omega)
            exact Nat.pow_le_pow_right (by omega) (by omega))

/-- The reducer under a modulus of degree m: everything it can do (42_reducer.md R76). -/
theorem reduce_of_degree {c : FieldCfg} (h : deg c.modulus = (c.degree : Int)) (on : Bool) (x : Nat) :
    reduce c on x =
      { records := (reduceLoop on c.modulus reducerFuel x).1 ++
          (if on then [modRecord x (c.mask (polyModLoop c.modulus reducerFuel x))] else []),
        result := .value (c.mask (polyModLoop c.modulus reducerFuel x)) } := by
  simp [reduce, h, reduceLoop_value]

/-- The multiplier's accumulator is the carry-less product with the low bits of b (43_multiplier.md R80). -/
theorem rawProduct_eq_clmulBits (a b n : Nat) : rawProduct a b n = clmulBits a b n := by
  induction n with
  | zero => rfl
  | succ n ih =>
    unfold rawProduct clmulBits
    rw [ih]
    split <;> simp

end Sys2Proof.Machine
end

