-- ==== Sys2Proof/Tests/Slice0.lean ====
section
/-! SUPPORT. The model's own tests. Expected values come from 95_test_vectors.md (V and S numbers) or from the
encodings of 30_encoding.md; and the witnesses that the hypotheses of the statements can be met. -/

namespace Sys2Proof.Machine

/-- A state with a configuration and operands. -/
def testState (m : BitVec 4) (poly : BitVec 9) (a b : BitVec 8) (x : BitVec 16) (e : BitVec 32) : State :=
  { State.reset with cfg := { m := m, poly := poly }, a := a, b := b, x := x, e := e }

def aesState (a b : BitVec 8) (x : BitVec 16) (e : BitVec 32) : State := testState 8 0x11B a b x e

def resultOf (o : StepOutcome) : Option (BitVec 32) := (nextOf o).map State.res
def errorOf (o : StepOutcome) : Option ErrField := (nextOf o).map State.err
def recordsOf (o : StepOutcome) : Option (List RecordWord) := (nextOf o).map fun t => t.trace.map StepRecord.word
def answerOf (o : StepOutcome) : Option Answer := (nextOf o).map State.answer

/-- An outcome that is seen to go on, goes on. -/
theorem goes_on {o : StepOutcome} (h : (nextOf o).isSome = true) : ∃ t, o = .next t := by
  rcases o with t | f | r
  · exact ⟨t, rfl⟩
  · simp [nextOf] at h
  · simp [nextOf] at h

/-- An outcome that is seen to go on to a state with a property, does. -/
theorem goes_on_with {o : StepOutcome} (p : State → Bool) (h : (nextOf o).any p = true) :
    ∃ t, o = .next t ∧ p t = true := by
  rcases o with t | f | r
  · exact ⟨t, rfl, by simpa [nextOf] using h⟩
  · simp [nextOf] at h
  · simp [nextOf] at h

/-- An outcome that is seen to be a fault, is. -/
theorem is_fault {o : StepOutcome} {f : Fault} (h : faultOf o = some f) : o = .fault f := by
  rcases o with t | f' | r
  · simp [faultOf] at h
  · simp only [faultOf, Option.some.injEq] at h; rw [h]
  · simp [faultOf] at h

/-- A state with one access waiting. -/
def waiting (acc : Access) (s : State) : State := { s with pending := [.access acc] }

/-! ### Well-formedness: ill-formed words are refused, one for each check of the table's mask -/

theorem test_wf_opcode_zero : legalWord 0x00000000 = false := by decide
theorem test_wf_opcode_a : legalWord 0x0000000A = false := by decide
theorem test_wf_opcode_f_traced : legalWord 0x0000001F = false := by decide
theorem test_wf_reserved_bit5 : legalWord 0x00000020 = false := by decide
theorem test_wf_reserved_bit31 : legalWord 0x80000006 = false := by decide
theorem test_wf_deftab_16 : Reg.wf (.deftab 16) = false := by decide
theorem test_wf_trace_2048 : Reg.wf (.traceLo 2048) = false ∧ Reg.wf (.traceHi 2048) = false := by decide
theorem test_rows_disjoint :
    opcodeTable.Pairwise fun r r' => (r.pattern &&& r'.mask) ≠ (r'.pattern &&& r.mask) := by decide

/-! ### Decoding: words written out from 30_encoding.md R50, R51 -/

theorem test_decode_setcfg : decodeWord 0b00000000000000000000000000000001 = .command (.setcfg false)
    ∧ decodeWord 0b00000000000000000000000000010001 = .command (.setcfg true) := by decide
theorem test_decode_defcfg : decodeWord 0b00000000000000000000000000000010 = .command (.defcfg false)
    ∧ decodeWord 0b00000000000000000000000000010010 = .command (.defcfg true) := by decide
theorem test_decode_deg : decodeWord 0b00000000000000000000000000000011 = .command (.deg false)
    ∧ decodeWord 0b00000000000000000000000000010011 = .command (.deg true) := by decide
theorem test_decode_add : decodeWord 0b00000000000000000000000000000100 = .command (.add false)
    ∧ decodeWord 0b00000000000000000000000000010100 = .command (.add true) := by decide
theorem test_decode_red : decodeWord 0b00000000000000000000000000000101 = .command (.red false)
    ∧ decodeWord 0b00000000000000000000000000010101 = .command (.red true) := by decide
theorem test_decode_mul : decodeWord 0b00000000000000000000000000000110 = .command (.mul false)
    ∧ decodeWord 0b00000000000000000000000000010110 = .command (.mul true) := by decide
theorem test_decode_pow : decodeWord 0b00000000000000000000000000000111 = .command (.pow false)
    ∧ decodeWord 0b00000000000000000000000000010111 = .command (.pow true) := by decide
theorem test_decode_inv : decodeWord 0b00000000000000000000000000001000 = .command (.inv false)
    ∧ decodeWord 0b00000000000000000000000000011000 = .command (.inv true) := by decide
theorem test_decode_div : decodeWord 0b00000000000000000000000000001001 = .command (.div false)
    ∧ decodeWord 0b00000000000000000000000000011001 = .command (.div true) := by decide
theorem test_decode_illegal : decodeWord 0x00000010 = .illegal .reservedOpcode
    ∧ decodeWord 0x0000000A = .illegal .reservedOpcode ∧ decodeWord 0x0000001F = .illegal .reservedOpcode
    ∧ decodeWord 0x00000020 = .illegal .reservedBits ∧ decodeWord 0x80000006 = .illegal .reservedBits
    ∧ decodeWord 0xFFFFFFFF = .illegal .reservedBits := by decide
theorem test_decode_bytes : decodeBytes [0x16, 0, 0, 0] = (.command (.mul true), [])
    ∧ decodeBytes [0, 0, 0, 0x16] = (.illegal .reservedBits, [])
    ∧ decodeBytes [0x16, 0, 0] = (.illegal .tooShort, [0x16, 0, 0]) := by decide
theorem test_table_word : decodeTableWord 32 0x18 = some (.inv true) ∧ decodeTableWord 8 0x18 = some (.inv true)
    ∧ decodeTableWord 32 0x28 = none := by decide

/-! ### Commands -/

/-- V3, V4. -/
theorem test_setcfg : (nextOf (exec (.setcfg false) (aesState 4 0 0x15 0))).map (fun t => t.cfg.word) = some 0x00001504
    ∧ errorOf (exec (.setcfg true) (aesState 8 0 0x1B 0)) = some (.raised .invalidModulus) := by decide
/-- V7. -/
theorem test_setcfg_size_first :
    errorOf (exec (.setcfg false) (aesState 9 0 0x21B 0)) = some (.raised .invalidFieldSize) := by decide
/-- V11, V15. -/
theorem test_defcfg : (nextOf (exec (.defcfg false) (aesState 5 0 0 0))).map (fun t => t.cfg.word) = some 0x00002505
    ∧ (nextOf (exec (.defcfg true) (aesState 2 0 0 0))).map (fun t => t.cfg.word) = some 0x00000702 := by decide
/-- V13. -/
theorem test_defcfg_size : errorOf (exec (.defcfg false) (aesState 9 0 0 0)) = some (.raised .invalidFieldSize) := by
  decide
/-- V16, V20. -/
theorem test_deg : resultOf (exec (.deg false) (aesState 0 0 0 0)) = some 0xFFFFFFFF
    ∧ resultOf (exec (.deg false) (aesState 0 0 0x8000 0)) = some 15 := by decide
/-- S1, V24. -/
theorem test_add : resultOf (exec (.add false) (aesState 0x57 0x13 0 0)) = some 0x44
    ∧ resultOf (exec (.add false) (testState 4 0x13 0xFA 0x0B 0 0)) = some 0x1 := by decide
/-- V34. -/
theorem test_red_trace : recordsOf (exec (.red true) (aesState 0 0 0xFFFF 0)) =
    some [0x200000727FFFFF07, 0x20000034BF727F06, 0x20000017DF34BF05, 0x200000066F17DF04, 0x2000000203066F02,
      0x2000000035020301, 0x300000000035FFFF] := by decide
/-- V37. -/
theorem test_red : resultOf (exec (.red false) (testState 2 0x7 0 0 0x8000 0)) = some 1 := by decide
/-- S2, V48, V51. -/
theorem test_mul : resultOf (exec (.mul false) (aesState 0x57 0x13 0 0)) = some 0xFE
    ∧ resultOf (exec (.mul false) (testState 4 0x13 0xFA 0x0B 0 0)) = some 0x2
    ∧ resultOf (exec (.mul false) (testState 4 0x15 0x7 0x7 0 0)) = some 0 := by decide
/-- V41. -/
theorem test_mul_trace : recordsOf (exec (.mul true) (aesState 0x57 0x13 0 0)) =
    some [0x1000570000575708, 0x1000F90057575709, 0x1000F900F9575702, 0x1000F900F9575703, 0x10058900F957570C,
      0x1005890589575705, 0x1005890589575706, 0x1005890589575707, 0x20000001E5058902, 0x20000000FE01E500,
      0x3000000000FE0589] := by decide
/-- S3, V54, V61. -/
theorem test_pow : resultOf (exec (.pow false) (aesState 0x57 0 0 2)) = some 0xA5
    ∧ resultOf (exec (.pow true) (aesState 0 0 0 0)) = some 1
    ∧ resultOf (exec (.pow false) (aesState 3 0 0 0xFE)) = some 0xF6 := by decide +kernel
/-- V59, with TRACE_NESTED false; and the first and last record of V58 with TRACE_NESTED true. -/
theorem test_pow_trace :
    (power { m := 8, poly := 0x11B } false true 0x57 5).records.map StepRecord.word =
      [0x4000005701A55701, 0x4000005757E7A500, 0x400000945748E701]
    ∧ (power { m := 8, poly := 0x11B } true true 0x57 2).records.length = 32 := by decide +kernel
/-- S4, V74. -/
theorem test_inv : resultOf (exec (.inv false) (aesState 0x57 0 0 0)) = some 0xBF
    ∧ resultOf (exec (.inv false) (aesState 0xFF 0 0 0)) = some 0x1C
    ∧ errorOf (exec (.inv true) (aesState 0 0 0 0)) = some (.raised .noInverse) := by decide
/-- V78, V70 with TRACE_NESTED true. -/
theorem test_inv_trace :
    recordsOf (exec (.inv true) (testState 4 0x15 0x7 0 0 0)) =
      some [0x5004000240401C15, 0x50040401C0201C09, 0x5004060000101C07]
    ∧ (invert { m := 8, poly := 0x11B } true true 2).records.map StepRecord.word =
      [0x50040006C800091B, 0x50048002C080081B, 0x50048800C040080B, 0x50048C0040100803, 0x30000000008D008D] := by
  decide
/-- V85, V88. -/
theorem test_div : resultOf (exec (.div false) (aesState 0xC1 0x83 0 0)) = some 0x57
    ∧ errorOf (exec (.div false) (aesState 5 0 0 0)) = some (.raised .noInverse) := by decide
/-- V89 with TRACE_NESTED false. -/
theorem test_div_trace : (divide { m := 8, poly := 0x11B } false true 1 2).records.map StepRecord.word =
    [0x50040006C800091B, 0x50048002C080081B, 0x50048800C040080B, 0x50048C0040100803, 0x1000010000010108,
      0x1000010001010101, 0x100005000101010A, 0x10000D000501010B, 0x10000D000D010104, 0x10000D000D010105,
      0x10000D000D010106, 0x10008D000D01010F, 0x30000000008D008D] := by decide

/-! ### The bus and the reset -/

/-- V104, V103, V108, V109. -/
theorem test_bus_reads :
    (nextOf (step (waiting (.write .w32 0x000C 0x1234) State.reset))).map State.a = some 0x34
    ∧ answerOf (step (waiting (.read .w32 0x0000) State.reset)) = some (.data 0)
    ∧ answerOf (step (waiting (.read .w32 0x0008) State.reset)) = some (.data 0x00011B08)
    ∧ answerOf (step (waiting (.read .w32 0x0060) State.reset)) = some (.data 0x0000011B) := by decide
/-- V112, V114, V115, V116. -/
theorem test_bus_errors :
    faultOf (step (waiting (.read .w32 0x0024) State.reset)) = some (.busError .reserved)
    ∧ faultOf (step (waiting (.read .w8 0x000C) State.reset)) = some (.busError .width)
    ∧ faultOf (step (waiting (.write .w32 0x000E 1) State.reset)) = some (.busError .misaligned)
    ∧ faultOf (step (waiting (.write .w16 0x0000 6) State.reset)) = some (.busError .width) := by decide
/-- V100: an illegal command sets the error and keeps RES; V106: a write of RES does nothing. -/
theorem test_illegal_and_read_only :
    (nextOf (step (waiting (.write .w32 0x0000 0x20) { aesState 1 2 3 4 with res := 0xFE }))).map
      (fun t => (t.err, t.res, t.a)) = some (.raised .illegalCommand, 0xFE, 1)
    ∧ (nextOf (step (waiting (.write .w32 0x001C 0x12345) State.reset))).map State.res = some 0 := by decide
/-- A reset between commands and during one. -/
theorem test_reset_input :
    (nextOf (step { aesState 1 2 3 4 with pending := [.reset] })).map State.a = some 0
    ∧ (nextOf (step { testState 4 0x13 1 2 3 4 with pending := [.resetDuring 6] })).map State.cfg
      = some { m := 8, poly := 0x11B } := by decide
/-- A placed word runs next: program 1 of 95_test_vectors.md section 3, its second command. -/
theorem test_placed_word : resultOf (step ((aesState 0x57 0x13 0 0).withFetchWord 32 0x06)) = some 0xFE := by decide

/-! ### The open default table: its candidates are all the irreducible polynomials of the degree
(93_implementation_defined.md section 3) -/

def irreduciblesOfDegree (m : Nat) : List Nat := ((List.range (2 ^ m)).map (2 ^ m + ·)).filter irreducible

theorem test_irreducibles_small : irreduciblesOfDegree 2 = [0x7]
    ∧ irreduciblesOfDegree 3 = irreducibles3.map BitVec.toNat
    ∧ irreduciblesOfDegree 4 = irreducibles4.map BitVec.toNat := by decide +kernel
theorem test_irreducibles_6 : irreduciblesOfDegree 6 = irreducibles6.map BitVec.toNat := by decide +kernel
theorem test_irreducibles_7 : irreduciblesOfDegree 7 = irreducibles7.map BitVec.toNat := by decide +kernel

/-! ### Witnesses: each statement's hypotheses can be met, clause by clause, at the boundaries -/

/-- Three accesses wait behind one another. -/
def queued : State :=
  { aesState 0x57 0x13 0 2 with pending := [cmdWrite 0x06, .access (.read .w32 0x001C), .access (.read .w8 0)] }

theorem witness_EveryStepKeepsTheInvariant : queued.Inv ∧ ∃ t, step queued = .next t := ⟨by decide, goes_on (by decide)⟩

theorem witness_ReachableConfigurationIsValid : Reachable (offer [.reset] State.reset) := .offered _ _ .reset

theorem witness_ReachableStepsAreSafe : queued.Inv ∧ Reachable State.reset := ⟨by decide, .reset⟩

theorem witness_DecoderFollowsItsRule :
    rsvField 0x20 ≠ 0 ∧ rsvField 0x80000000 ≠ 0 ∧
    (rsvField 0x01 = 0 ∧ (opField 0x01).toNat = 1) ∧ (rsvField 0x19 = 0 ∧ (opField 0x19).toNat = 9) ∧
    (rsvField 0x10 = 0 ∧ (opField 0x10).toNat = 0) ∧ (rsvField 0x0A = 0 ∧ 9 < (opField 0x0A).toNat) ∧
    9 < (opField 0x1F).toNat := by decide

theorem witness_OpcodeMapIsTheTable :
    (0xA ≤ (0xA : BitVec 4).toNat) ∧ (0xA ≤ (0xF : BitVec 4).toNat) ∧
    decodeWord 0x01 = .command (.setcfg false) ∧ decodeWord 0x19 = .command (.div true) := by decide

theorem witness_IllegalCommandSetsOnlyTheError :
    (waiting (.write .w32 0 0x10) State.reset).busy = false ∧
    (waiting (.write .w32 0 0x10) State.reset).pending = cmdWrite 0x10 :: [] ∧
    decodeWord 0x10 = .illegal .reservedOpcode ∧ decodeWord 0xFFFFFFFF = .illegal .reservedBits := by decide

theorem witness_StepRunsTheDecodedCommand :
    queued.busy = false ∧ queued.pending = cmdWrite 0x06 :: queued.pending.tail ∧
    decodeWord 0x06 = .command (.mul false) := by decide

theorem witness_IdleAndHeldStepsChangeNothing :
    State.reset.pending = [] ∧ { queued with busy := true }.busy = true ∧
    { queued with busy := true }.pending = .access (.write .w32 0 0x06) :: queued.pending.tail := by decide

theorem witness_InputsArePerformedInOrder :
    queued.busy = false ∧ queued.pending = cmdWrite 0x06 :: queued.pending.tail ∧ ∃ t, step queued = .next t :=
  ⟨by decide, by decide, goes_on (by decide)⟩

theorem witness_RegisterMapIsExact :
    regAt 0x0020 = some .traceCount ∧ regAt 0x0024 = none ∧ regAt 0x003C = none ∧ regAt 0x0040 = some (.deftab 0) ∧
    regAt 0x007C = some (.deftab 15) ∧ regAt 0x0080 = none ∧ regAt 0x7FFC = none ∧
    regAt 0x8000 = some (.traceLo 0) ∧ regAt 0x8004 = some (.traceHi 0) ∧ regAt 0xBFF8 = some (.traceLo 2047) ∧
    regAt 0xBFFC = some (.traceHi 2047) ∧ regAt 0xC000 = none ∧ regAt 0xFFFC = none := by decide

theorem witness_BusErrorsAreExactlyTheIllegalAccesses :
    (waiting (.read .w32 0x0020) State.reset).busy = false ∧
    (waiting (.read .w32 0x0020) State.reset).pending = .access (.read .w32 0x0020) :: [] ∧
    (waiting (.write .burst 0 0) State.reset).pending = .access (.write .burst 0 0) :: [] := by decide

theorem witness_ReadsHaveNoSideEffect :
    (waiting (.read .w32 0x0000) State.reset).busy = false ∧ State.reset.readWindow 0x0000 = some 0 ∧
    State.reset.readWindow 0xBFFC = some 0 := by decide

theorem witness_OperandWritesStoreLowBits (off : Offset) (v : Word) :
    (waiting (.write .w32 off v) State.reset).busy = false ∧
    (waiting (.write .w32 off v) State.reset).pending = .access (.write .w32 off v) :: [] := ⟨rfl, rfl⟩

theorem witness_ReadOnlyWritesChangeNothing :
    (0x0004 : Offset).toNat % 4 = 0 ∧ (0x0020 : Offset).toNat % 4 = 0 ∧ (0x0040 : Offset).toNat % 4 = 0 ∧
    (0x007C : Offset).toNat % 4 = 0 ∧ (0x8000 : Offset).toNat % 4 = 0 ∧ (0xBFFC : Offset).toNat % 4 = 0 ∧
    (waiting (.write .w32 0xBFFC 1) State.reset).pending = .access (.write .w32 0xBFFC 1) :: [] := by decide

theorem witness_BitsBeyondTheWidthReadZero :
    (0x1234 : Word).extractLsb' 0 8 = (0xFF34 : Word).extractLsb' 0 8 ∧
    (0x0001FFFF : Word).extractLsb' 0 16 = (0xFFFF : Word).extractLsb' 0 16 := by decide

theorem witness_RegistersReadTheirFields : State.reset.traceCount ≤ 2048 := by decide

theorem witness_TraceWindowReadsRecords :
    { State.reset with trace := [modRecord 0 0] }.trace[0]? = some (modRecord 0 0) ∧
    { State.reset with trace := [modRecord 0 0] }.traceCount ≤ 1 := by decide

theorem witness_RecordWordsReadBack : recordOfWord 0x3000000000FE0589 = some (modRecord 0x589 0xFE) := by decide

theorem witness_ResetInputResetsTheCore :
    { State.reset with pending := [.reset] }.pending = .reset :: [] ∧
    { State.reset with pending := [.resetDuring 6] }.pending = .resetDuring 6 :: [] := by decide

theorem witness_HostProgramLinesExpand :
    Reg.wf .cmd = true ∧ Reg.wf (.deftab 0) = true ∧ Reg.wf (.deftab 15) = true ∧ Reg.wf (.traceLo 0) = true ∧
    Reg.wf (.traceLo 2047) = true ∧ Reg.wf (.traceHi 0) = true ∧ Reg.wf (.traceHi 2047) = true := by decide

/-- 30_encoding.md R64, R65: `cfg 8, 0x11B` and `rdt 2047`, written out. -/
theorem test_host_program_lines :
    (AsmLine.cfg 8 0x11B).expand = [.write .w32 0x000C 8, .write .w32 0x0014 0x11B, .write .w32 0x0000 0x01]
    ∧ (AsmLine.rdt 2047).expand = [.read .w32 0xBFF8, .read .w32 0xBFFC] := by decide

theorem witness_SetcfgLoadsOrRejects :
    (aesState 1 0 3 0).a.toNat < 2 ∧ 8 < (aesState 9 0 0 0).a.toNat ∧
    ((aesState 2 0 3 0).x.toNat < 2 ^ (aesState 2 0 3 0).a.toNat) ∧
    (2 ^ ((aesState 8 0 0x200 0).a.toNat + 1) ≤ (aesState 8 0 0x200 0).x.toNat) ∧
    (2 ^ (aesState 2 0 4 0).a.toNat ≤ (aesState 2 0 4 0).x.toNat) ∧
    ((aesState 8 0 0x1FF 0).x.toNat < 2 ^ ((aesState 8 0 0x1FF 0).a.toNat + 1)) := by decide

theorem witness_DefcfgLoadsTheTable :
    (aesState 1 0 0 0).a.toNat < 2 ∧ 8 < (aesState 9 0 0 0).a.toNat ∧ 2 ≤ (aesState 2 0 0 0).a.toNat ∧
    (aesState 8 0 0 0).a.toNat ≤ 8 := by decide

theorem witness_DegWritesTheDegree :
    (aesState 0 0 0 0).x = 0 ∧ (2 ^ 0 ≤ (aesState 0 0 1 0).x.toNat ∧ (aesState 0 0 1 0).x.toNat < 2 ^ (0 + 1)) ∧
    (2 ^ 15 ≤ (aesState 0 0 0xFFFF 0).x.toNat ∧ (aesState 0 0 0xFFFF 0).x.toNat < 2 ^ (15 + 1)) := by decide

/-- Two configurations that meet the rule of R25, at its ends; and elements below 2^m. -/
theorem witness_valid_configurations :
    FieldCfg.valid { m := 2, poly := 0x7 } ∧ FieldCfg.valid { m := 8, poly := 0x1FF } ∧
    (aesState 0 0 0 0).cfg.valid := by decide

theorem witness_AdditionLaws : 255 < 2 ^ (aesState 0 0 0 0).cfg.degree ∧ 0 < 2 ^ (aesState 0 0 0 0).cfg.degree := by
  decide

theorem witness_ReducerFollowsItsLoop : FieldCfg.valid { m := 2, poly := 0x7 } ∧ 0xFFFF < 2 ^ 16 := by decide

theorem witness_ReductionIsTheUniqueRemainder :
    FieldCfg.valid { m := 8, poly := 0x11B } ∧ (reduce { m := 8, poly := 0x11B } false 0xFFFF).result = .value 0x35 := by
  decide

theorem witness_ReducerGuardRaises :
    deg (testState 8 0 0 0 0 0).cfg.modulus ≠ ((testState 8 0 0 0 0 0).cfg.degree : Int) ∧
    FieldCfg.valid { m := 8, poly := 0x11B } := by decide

theorem witness_MultiplicationIsTheRingProduct :
    FieldCfg.valid { m := 4, poly := 0x15 } ∧ 0x7 < 2 ^ FieldCfg.degree { m := 4, poly := 0x15 } ∧
    product { m := 4, poly := 0x15 } 0x7 0x7 = 0 := by decide

theorem witness_ExponentiatorFollowsItsLoop :
    FieldCfg.valid { m := 8, poly := 0x11B } ∧ 0x57 < 2 ^ FieldCfg.degree { m := 8, poly := 0x11B } ∧
    0xFFFFFFFF < 2 ^ 32 ∧ exponentBits 0xFFFFFFFF = 32 ∧ exponentBits 0 = 0 := by decide

theorem witness_GroupOrderLaw : FieldCfg.valid { m := 8, poly := 0x11B } ∧ irreducible 0x11B = true ∧
    irreducible 0x7 = true ∧ iteratedProduct { m := 2, poly := 0x7 } 2 3 = 1 := by decide +kernel

theorem witness_PowWritesThePower :
    (aesState 0x57 0 0 0).cfg.valid ∧ (aesState 0x57 0 0 0).e = 0 ∧ (aesState 0x57 0 0 1).e = 1 := by decide

theorem witness_InverterBounds :
    (invert { m := 8, poly := 0x11B } false true 0x57).result = .value 0xBF ∧ 1 ≤ 0x57 ∧
    0x57 < 2 ^ FieldCfg.degree { m := 8, poly := 0x11B } := by decide

theorem witness_InverseIsTheRingInverse :
    coprime 0x2 0x15 = true ∧ coprime 0x7 0x15 = false ∧ irreducible 0x13 = true := by decide

theorem witness_InvWritesTheInverse :
    elementA (testState 4 0x15 0xF0 0 0 0) = 0 ∧
    (elementA (testState 4 0x15 0x7 0 0 0) ≠ 0 ∧ coprime (elementA (testState 4 0x15 0x7 0 0 0)) 0x15 = false) ∧
    coprime (elementA (testState 4 0x15 0xF2 0 0 0)) 0x15 = true ∧ (testState 4 0x15 0 0 0 0).cfg.valid ∧
    (irreducible (testState 4 0x13 2 0 0 0).cfg.modulus = true ∧ elementA (testState 4 0x13 2 0 0 0) ≠ 0) := by decide

theorem witness_DivWritesTheQuotient :
    elementB (testState 4 0x15 1 0xF0 0 0) = 0 ∧
    (elementB (testState 4 0x15 1 0x7 0 0) ≠ 0 ∧ coprime (elementB (testState 4 0x15 1 0x7 0 0)) 0x15 = false) ∧
    coprime (elementB (testState 4 0x15 1 0xF2 0 0)) 0x15 = true ∧ (testState 4 0x15 0 0 0 0).cfg.valid ∧
    (irreducible (testState 4 0x13 0 2 0 0).cfg.modulus = true ∧ elementB (testState 4 0x13 0 2 0 0) ≠ 0) := by decide

theorem witness_DivisionUndoesMultiplication :
    FieldCfg.valid { m := 4, poly := 0x15 } ∧ coprime 0x7 0x15 = false ∧ coprime 0x2 0x15 = true ∧
    irreducible 0x13 = true := by decide

theorem witness_NeverEndingNeedsZeroModulus :
    exec (.inv false) (testState 8 0 2 0 0 0) = .fault .commandNeverCompletes := is_fault (by decide)

/-- The hypotheses of the statements over every command: a next state, without and with an error. -/
theorem witness_next_states :
    (∃ t, exec (.mul true) (aesState 0x57 0x13 0 0) = .next t ∧ (t.err = .clear && t.traceCount = 11) = true) ∧
    (∃ t, exec (.inv true) (testState 4 0x15 0x7 0 0 0) = .next t ∧
      (t.err = .raised .notInvertible && t.traceCount = 3) = true) ∧
    (∃ t, exec (.setcfg true) (aesState 9 0 0 0) = .next t ∧ (t.err = .raised .invalidFieldSize : Bool) = true) ∧
    (∃ t, exec (.mul false) (aesState 0x57 0x13 0 0) = .next t ∧ (t.trace = [] : Bool) = true) :=
  ⟨goes_on_with (fun t => t.err = .clear && t.traceCount = 11) (by decide),
    goes_on_with (fun t => t.err = .raised .notInvertible && t.traceCount = 3) (by decide),
    goes_on_with (fun t => t.err = .raised .invalidFieldSize) (by decide),
    goes_on_with (fun t => t.trace = []) (by decide)⟩

theorem witness_DegreeIsTheHighestBit : 0 < 1 ∧ 2 ^ 0 ≤ 1 ∧ 1 < 2 ^ (0 + 1) := by decide

theorem witness_DefaultTableIsIrreducible : (2 ≤ 2 ∧ 8 ≤ 8) ∧ deftab 1 = 0 ∧ deftab 9 = 0 := by decide

theorem witness_RedWritesTheRemainder : (testState 2 0x7 0 0 0xFFFF 0).cfg.valid := by decide

theorem witness_MulWritesTheProduct : (testState 8 0x1FF 0xFF 0xFF 0 0).cfg.valid := by decide

theorem witness_PowerIsTheRepeatedProduct :
    FieldCfg.valid { m := 4, poly := 0x13 } ∧ 0xF < 2 ^ FieldCfg.degree { m := 4, poly := 0x13 } ∧
    iteratedProduct { m := 4, poly := 0x13 } 2 4 = 3 := by decide

theorem witness_EveryCommandCompletes : (testState 2 0x7 3 3 0xFFFF 0xFFFFFFFF).cfg.valid := by decide

theorem witness_CommandFrame :
    ∃ t, exec (.inv true) (aesState 0 0 0 0) = .next t ∧ (t.err = .raised .noInverse : Bool) = true :=
  goes_on_with (fun t => t.err = .raised .noInverse) (by decide)

theorem witness_ErrorsArePrecise :
    ∃ t, exec (.inv true) (testState 4 0x15 0x7 0 0 0) = .next t ∧
      (t.err = .raised .notInvertible && t.traceCount = 3) = true :=
  goes_on_with (fun t => t.err = .raised .notInvertible && t.traceCount = 3) (by decide)

theorem witness_CommandsRaiseOnlyTheirErrors :
    (testState 4 0x15 0x7 0 0 0).cfg.valid ∧ (∃ t, exec (.inv true) (testState 4 0x15 0x7 0 0 0) = .next t ∧
      (t.err = .raised .notInvertible : Bool) = true) ∧
    irreducible (aesState 0 0 0 0).cfg.modulus = true ∧ (testState 4 0x15 0xF0 0 0 0).e = 0 :=
  ⟨by decide, goes_on_with (fun t => t.err = .raised .notInvertible) (by decide), by decide +kernel, by decide⟩

theorem witness_ResultsHaveTheirForm :
    (aesState 0 0 0 0).cfg.valid ∧ (∃ t, exec (.deg true) (aesState 0 0 0 0) = .next t ∧
      (t.err = .clear : Bool) = true) ∧
    ∃ t, exec (.mul false) (aesState 0x57 0x13 0 0) = .next t ∧ (t.err = .clear : Bool) = true :=
  ⟨by decide, goes_on_with (fun t => t.err = .clear) (by decide),
    goes_on_with (fun t => t.err = .clear) (by decide)⟩

theorem witness_LegalCommandsClearTheTrace :
    (∃ t, exec (.mul false) (aesState 0x57 0x13 0 0) = .next t) ∧ ownTags (.add true) = [] ∧
    decodeWord 0x20 = .illegal .reservedBits := ⟨goes_on (by decide), by decide, by decide⟩

theorem witness_CommandsRecordOnlyTheirVariants :
    ∃ t, exec (.red true) (aesState 0 0 0 0) = .next t ∧ (modRecord 0 0 ∈ t.trace : Bool) = true :=
  goes_on_with (fun t => modRecord 0 0 ∈ t.trace) (by decide)

theorem witness_CommandFrameInTheWindow :
    (0x0000 : Offset) ≠ 0x0004 ∧ (0x0000 : Offset) ≠ 0x0020 ∧ (0x7FFC : Offset) ≠ 0x0008 ∧
    ¬ (0x8000 ≤ (0x7FFC : Offset).toNat ∧ (0x7FFC : Offset).toNat < 0xC000) ∧
    ¬ (0x8000 ≤ (0xC000 : Offset).toNat ∧ (0xC000 : Offset).toNat < 0xC000) := by decide

theorem witness_TraceNeverChangesAResult :
    ∃ t, runCommandWord 0x06 (aesState 0x57 0x13 0 0) = .next t := goes_on (by decide)

theorem witness_TraceBounds : (aesState 0 0 0 0).cfg.valid ∧ 255 < 2 ^ (aesState 0 0 0 0).cfg.degree ∧
    (divide { m := 2, poly := 0x7 } true true 3 3).records.length ≤ traceBound true 2 (.div true) ∧
    (power (aesState 0 0 0 0).cfg false true 2 0xFFFFFFFF).records.length = 32 := by decide +kernel

theorem witness_CommandsDependOnOperandsOnly :
    (aesState 1 2 3 4).cfg = { aesState 1 2 3 4 with res := 7, trace := [modRecord 0 0] }.cfg ∧
    ∃ t, exec (.add false) (aesState 1 2 3 4) = .next t := ⟨rfl, goes_on (by decide)⟩

theorem witness_HiddenStateNeverLeaks :
    (∃ t, step queued = .next t) ∧
    step (waiting (.read .w8 0x000C) State.reset) = .fault (.busError .width) :=
  ⟨goes_on (by decide), is_fault (by decide)⟩

end Sys2Proof.Machine
end

section
/-! The state of the core (10_state.md): its invariant along every run, the default table, and the reset values. -/

namespace Sys2Proof.Machine

/-! ### Degrees and bits (41_primitives.md R70) -/

theorem ne_zero_of_deg_eq {p m : Nat} (h : deg p = (m : Int)) : p ≠ 0 := by
  rintro rfl
  rw [deg_zero] at h
  omega

theorem log2_of_deg_eq {p m : Nat} (h : deg p = (m : Int)) : p.log2 = m := by
  rw [deg_of_ne_zero (ne_zero_of_deg_eq h)] at h
  exact Int.ofNat_inj.mp h

theorem testBit_of_deg_eq {p m : Nat} (h : deg p = (m : Int)) : p.testBit m = true :=
  log2_of_deg_eq h ▸ Nat.testBit_log2 (ne_zero_of_deg_eq h)

theorem testBit_of_deg_lt {p j : Nat} (h : deg p < (j : Int)) : p.testBit j = false :=
  Nat.testBit_lt_two_pow ((deg_lt_iff p j).mp h)

/-! ### The default table (10_state.md R28) -/

theorem getD_mem_of_fin {α : Type} {l : List α} {n : Nat} (length : l.length = n) (k : Fin n) (d : α) :
    l.getD k.val d ∈ l := by
  have inside : k.val < l.length := length ▸ k.isLt
  rw [List.getD_eq_getElem l d inside]
  exact List.getElem_mem inside

theorem irreducibles3_sound : ∀ p ∈ irreducibles3, deg p.toNat = 3 ∧ irreducible p.toNat = true := by decide
theorem irreducibles4_sound : ∀ p ∈ irreducibles4, deg p.toNat = 4 ∧ irreducible p.toNat = true := by decide
theorem irreducibles6_sound : ∀ p ∈ irreducibles6, deg p.toNat = 6 ∧ irreducible p.toNat = true := by
  decide +kernel
theorem irreducibles7_sound : ∀ p ∈ irreducibles7, deg p.toNat = 7 ∧ irreducible p.toNat = true := by
  decide +kernel

/-- Whatever the open picks are: a pick is an index into its list, and every entry of the list will do. -/
theorem deftab_irreducible {m : Nat} (lo : 2 ≤ m) (hi : m ≤ 8) :
    deg (deftab m).toNat = (m : Int) ∧ irreducible (deftab m).toNat = true := by
  have cases : m = 2 ∨ m = 3 ∨ m = 4 ∨ m = 5 ∨ m = 6 ∨ m = 7 ∨ m = 8 := by omega
  obtain rfl | rfl | rfl | rfl | rfl | rfl | rfl := cases
  · decide
  · exact irreducibles3_sound _ (getD_mem_of_fin rfl _ _)
  · exact irreducibles4_sound _ (getD_mem_of_fin rfl _ _)
  · decide
  · exact irreducibles6_sound _ (getD_mem_of_fin rfl _ _)
  · exact irreducibles7_sound _ (getD_mem_of_fin rfl _ _)
  · decide +kernel

theorem deftab_outside {m : Nat} (outside : m < 2 ∨ 8 < m) : deftab m = 0 := by
  unfold deftab
  split
  case h_8 => rfl
  all_goals omega

@[simp] theorem State.readReg_deftab (s : State) (m : Nat) : s.readReg (.deftab m) = (deftab m).setWidth 32 := rfl

/-- Settles O28: the fixed entries are computed, the open ones lie in their lists of irreducible polynomials. -/
theorem defaultTableIsIrreducible : Obligations.DefaultTableIsIrreducible := by
  refine ⟨rfl, rfl, fun m => deftab_irreducible, fun m => deftab_outside, fun s m => ?_⟩
  rw [State.readReg_deftab]
  exact BitVec.toNat_setWidth_of_le (by decide)

/-! ### The reset values (10_state.md R31) -/

/-- The trace window reads 0 from TRACE_COUNT on (20_memory.md R41). -/
theorem State.recordWord_of_traceCount_le {s : State} {k : Nat} (h : s.traceCount ≤ k) : s.recordWord k = 0 := by
  simp [State.recordWord, List.getElem?_eq_none h]

/-- Settles O1: the registers by computation, the trace window because no record is held. -/
theorem resetLeavesTheStatedValues : Obligations.ResetLeavesTheStatedValues := by
  have window (k : Nat) : State.reset.recordWord k = 0 := State.recordWord_of_traceCount_le (Nat.zero_le k)
  refine ⟨rfl, rfl, rfl, rfl, rfl, rfl, rfl, rfl, rfl, rfl, fun k => ?_, fun s m => rfl⟩
  simp [State.readReg, window]

/-! ### Only a valid configuration is ever written (10_state.md R25) -/

theorem not_badDegree_iff {m : Nat} : ¬ badDegree m ↔ 2 ≤ m ∧ m ≤ 8 := by
  unfold badDegree Config.mMin Config.mMax
  omega

/-- A legal degree and a modulus of that degree fit the fields of CFG. -/
theorem FieldCfg.valid_ofNat {m p : Nat} (legal : ¬ badDegree m) (degree : deg p = (m : Int)) :
    FieldCfg.valid { m := BitVec.ofNat 4 m, poly := BitVec.ofNat 9 p } := by
  obtain ⟨lo, hi⟩ := not_badDegree_iff.mp legal
  have m_fits : m % 2 ^ 4 = m := Nat.mod_eq_of_lt (by omega)
  have p_fits : p % 2 ^ 9 = p := Nat.mod_eq_of_lt ((deg_lt_iff p 9).mp (by omega))
  simp only [FieldCfg.valid, BitVec.toNat_ofNat, m_fits, p_fits]
  exact ⟨lo, hi, degree⟩

theorem setcfgBody_writes_valid {s : State} {c : FieldCfg} (h : (setcfgBody s).result = .value (.writeCfg c)) :
    c.valid := by
  unfold setcfgBody at h
  split at h
  · cases h
  · next legal =>
    split at h
    · cases h
    · next degree =>
      cases h
      exact FieldCfg.valid_ofNat legal (not_not.mp degree)

theorem defcfgBody_writes_valid {s : State} {c : FieldCfg} (h : (defcfgBody s).result = .value (.writeCfg c)) :
    c.valid := by
  unfold defcfgBody at h
  split at h
  · cases h
  · next legal =>
    cases h
    obtain ⟨lo, hi⟩ := not_badDegree_iff.mp legal
    obtain ⟨degree, -⟩ := deftab_irreducible lo hi
    simpa using FieldCfg.valid_ofNat legal degree

theorem Run.toRes_writes_no_cfg (run : Run Nat) (c : FieldCfg) : run.toRes.result ≠ .value (.writeCfg c) := by
  obtain ⟨v, -, h⟩ | ⟨e, -, h⟩ | ⟨-, h⟩ := run.toRes_result_cases <;> simp [h]

/-- Of the nine commands only SETCFG and DEFCFG write CFG, and both only a valid one. -/
theorem commandBody_writes_valid {i : Instr} {s : State} {c : FieldCfg}
    (h : (commandBody i s).result = .value (.writeCfg c)) : c.valid := by
  cases i with
  | setcfg _ => exact setcfgBody_writes_valid h
  | defcfg _ => exact defcfgBody_writes_valid h
  | deg _ => cases h
  | add _ => cases h
  | red _ => exact absurd h (Run.toRes_writes_no_cfg _ c)
  | mul _ => exact absurd h (Run.toRes_writes_no_cfg _ c)
  | pow _ => exact absurd h (Run.toRes_writes_no_cfg _ c)
  | inv _ => exact absurd h (Run.toRes_writes_no_cfg _ c)
  | div _ => exact absurd h (Run.toRes_writes_no_cfg _ c)

/-! ### The invariant, kept by everything that reaches the core -/

theorem State.reset_inv : State.reset.Inv := by decide

/-- A register write leaves what the invariant speaks of as it was. -/
theorem State.writeReg_inv {s : State} (inv : s.Inv) (v : Word) (r : Reg) : (s.writeReg v r).Inv := by
  cases r <;> exact inv

/-- Ending a command gives the invariant, whatever ran before, as long as the command left CFG valid and the trace
within its room. -/
theorem State.endCommand_inv {s : State} (valid : s.cfg.valid) (room : s.traceCount ≤ Config.traceDepth) :
    s.endCommand.Inv := ⟨valid, rfl, rfl, room⟩

/-- The records of a command fit its trace, which starts empty (10_state.md R26, 47_step_recorder.md R96). -/
theorem State.beginCommand_emitAll_room (s : State) (t : Bool) (recs : List StepRecord) :
    ((s.beginCommand t).emitAll recs).traceCount ≤ Config.traceDepth :=
  State.emitAll_traceCount_le _ recs (Nat.zero_le _)

/-- A command that goes on establishes the invariant from a valid CFG (60_exceptions.md R103). -/
theorem exec_inv {i : Instr} {s t : State} (valid : s.cfg.valid) (h : exec i s = .next t) : t.Inv := by
  rw [exec_eq_frame] at h
  obtain ⟨recs, _, -, out⟩ | ⟨recs, _, body, out⟩ | ⟨recs, _, -, out⟩ | ⟨_, -, out⟩ :=
    frame_cases i.traced (commandBody i) s <;> rw [out] at h <;> cases h
  · exact State.endCommand_inv (by simpa using valid) (s.beginCommand_emitAll_room _ recs)
  · exact State.endCommand_inv (commandBody_writes_valid (congrArg Run.result body))
      (s.beginCommand_emitAll_room _ recs)
  · exact State.endCommand_inv (by simpa using valid) (s.beginCommand_emitAll_room _ recs)

theorem runCommandWord_inv {w : Word} {s t : State} (inv : s.Inv) (h : runCommandWord w s = .next t) : t.Inv := by
  obtain ⟨i, -, run⟩ | ⟨_, -, run⟩ := runCommandWord_cases w s <;> rw [run] at h
  · obtain ⟨valid, -⟩ := inv
    exact exec_inv valid h
  · cases h
    exact inv

theorem performAccess_inv {acc : Access} {s t : State} (inv : s.Inv) (h : performAccess acc s = .next t) :
    t.Inv := by
  obtain ⟨_, -, out⟩ | ⟨_, _, _, -, -, out⟩ | ⟨_, _, v, -, -, out⟩ | ⟨_, _, v, r, -, -, -, out⟩ :=
    performAccess_cases acc s <;> rw [out] at h
  · cases h
  · cases h
    exact inv
  · exact runCommandWord_inv (s := s.setAnswer .written) inv h
  · cases h
    exact State.writeReg_inv (s := s.setAnswer .written) inv v r

/-- The invariant is kept by every step that goes on, from every state that meets it. -/
theorem step_inv {s t : State} (inv : s.Inv) (h : step s = .next t) : t.Inv := by
  obtain ⟨-, out⟩ | ⟨_, _, -, -, out⟩ | ⟨_, rest, -, -, out⟩ | ⟨_, -, out⟩ | ⟨_, _, -, out⟩ :=
    step_cases s <;> rw [out] at h
  · cases h
    exact inv
  · cases h
    exact inv
  · exact performAccess_inv (s := s.setPending rest) inv h
  · cases h
    exact State.reset_inv
  · cases h
    exact State.reset_inv

theorem afterBusError_inv {s : State} (inv : s.Inv) (c : BusCause) : (afterBusError c s).Inv := inv

/-- Wherever the host can observe the core, the invariant holds. -/
theorem Reachable.inv {s : State} (h : Reachable s) : s.Inv := by
  induction h with
  | reset => exact State.reset_inv
  | offered _ _ _ ih => exact ih
  | stepped _ _ _ next ih => exact step_inv ih next
  | resumed _ c _ _ ih => exact afterBusError_inv ih c

/-! ### A reducible modulus is reached -/

/-- A run of the model's own `Host.Core.run` stays among the reachable states. -/
theorem Reachable.run {s t : State} (reachable : Reachable s) (k : Nat) (h : core.run k s = .next t) :
    Reachable t := by
  induction k generalizing s with
  | zero => cases h; exact reachable
  | succ k ih =>
    simp only [Host.Core.run] at h
    split at h
    · next next => exact ih (.stepped _ _ reachable next) h
    · cases h
    · cases h

/-- Reset, then the program line `cfg 4, 0x15`: CFG holds x^4 + x^2 + 1, which is (x^2 + x + 1)^2. -/
def reducibleConfigured : State :=
  { State.reset with
      a := 4, x := 0x15, cfg := { m := 4, poly := 0x15 }, answer := .written, work := freeWorking 0, draws := 1 }

theorem run_cfg_line_reducible :
    core.run 3 (offer (programInputs [.cfg 4 0x15]) State.reset) = .next reducibleConfigured := rfl

/-- Settles O4: the invariant holds in every reachable state, and a valid CFG has the stated bits; the program line
`cfg 4, 0x15` reaches a reducible modulus. -/
theorem reachableConfigurationIsValid : Obligations.ReachableConfigurationIsValid := by
  refine ⟨fun s reachable => ?_,
    reducibleConfigured, (Reachable.offered _ _ .reset).run 3 run_cfg_line_reducible, by decide⟩
  obtain ⟨⟨lo, hi, degree⟩, -⟩ := reachable.inv
  refine ⟨lo, hi, degree, testBit_of_deg_eq degree, fun j above => testBit_of_deg_lt (by omega), fun zero => ?_⟩
  exact ne_zero_of_deg_eq degree (by rw [zero]; rfl)

end Sys2Proof.Machine
end

section
/-! The register window (20_memory.md R32 to R42): the map, the bus rules, and what an access and its register do. -/

namespace Sys2Proof.Machine

/-! ### The register map (20_memory.md R33) -/

/-- A register of the map is found at its own offset. -/
theorem regAt_offset {r : Reg} (wf : r.wf = true) : regAt r.offset = some r := by
  cases r with
  | deftab m =>
    have inside : m < 16 := of_decide_eq_true wf
    have index : (0x0040 + 4 * m - 0x0040) / 4 = m := by omega
    simp (disch := omega) only [Reg.offset, regAt, if_neg, if_pos, index]
  | traceLo k =>
    have inside : k < 2048 := of_decide_eq_true (p := k < Config.traceDepth) wf
    have index : (0x8000 + 8 * k - 0x8000) / 8 = k := by omega
    simp (disch := omega) only [Reg.offset, regAt, if_neg, if_pos, index]
  | traceHi k =>
    have inside : k < 2048 := of_decide_eq_true (p := k < Config.traceDepth) wf
    have index : (0x8004 + 8 * k - 0x8004) / 8 = k := by omega
    simp (disch := omega) only [Reg.offset, regAt, if_neg, if_pos, index]
  | _ => rfl

/-- The three reserved ranges, the gaps of the map (20_memory.md R33, R36). -/
abbrev reservedOffset (off : Nat) : Prop :=
  (0x0024 ≤ off ∧ off ≤ 0x003F) ∨ (0x0080 ≤ off ∧ off ≤ 0x7FFF) ∨ 0xC000 ≤ off

theorem regAt_reserved {off : Nat} (reserved : reservedOffset off) : regAt off = none := by
  simp (disch := omega) only [regAt, if_neg]

/-- An aligned offset is that of a register of the map, or reserved. -/
theorem offset_cases {off : Nat} (aligned : off % 4 = 0) :
    (∃ r : Reg, r.wf = true ∧ r.offset = off) ∨ reservedOffset off := by
  by_cases low : off ≤ 0x0020
  · have nine : off = 0x0000 ∨ off = 0x0004 ∨ off = 0x0008 ∨ off = 0x000C ∨ off = 0x0010 ∨ off = 0x0014 ∨
        off = 0x0018 ∨ off = 0x001C ∨ off = 0x0020 := by omega
    obtain rfl | rfl | rfl | rfl | rfl | rfl | rfl | rfl | rfl := nine
    · exact .inl ⟨.cmd, rfl, rfl⟩
    · exact .inl ⟨.status, rfl, rfl⟩
    · exact .inl ⟨.cfg, rfl, rfl⟩
    · exact .inl ⟨.a, rfl, rfl⟩
    · exact .inl ⟨.b, rfl, rfl⟩
    · exact .inl ⟨.x, rfl, rfl⟩
    · exact .inl ⟨.e, rfl, rfl⟩
    · exact .inl ⟨.res, rfl, rfl⟩
    · exact .inl ⟨.traceCount, rfl, rfl⟩
  by_cases table : 0x0040 ≤ off ∧ off ≤ 0x007C
  · refine .inl ⟨.deftab ((off - 0x0040) / 4), decide_eq_true ?_, ?_⟩
    · omega
    · simp only [Reg.offset]; omega
  by_cases window : 0x8000 ≤ off ∧ off < 0xC000
  · by_cases lo : off % 8 = 0
    · refine .inl ⟨.traceLo ((off - 0x8000) / 8), decide_eq_true ?_, ?_⟩
      · simp only [Config.traceDepth]; omega
      · simp only [Reg.offset]; omega
    · refine .inl ⟨.traceHi ((off - 0x8004) / 8), decide_eq_true ?_, ?_⟩
      · simp only [Config.traceDepth]; omega
      · simp only [Reg.offset]; omega
  · exact .inr (by omega)

theorem regAt_eq_none_iff {off : Nat} (aligned : off % 4 = 0) : regAt off = none ↔ reservedOffset off := by
  refine ⟨fun missing => ?_, regAt_reserved⟩
  obtain ⟨r, wf, rfl⟩ | reserved := offset_cases aligned
  · rw [regAt_offset wf] at missing
    cases missing
  · exact reserved

/-- The registers that a write never changes (20_memory.md R37). -/
def Reg.readOnly : Reg → Bool
  | .cmd => false
  | .status => true
  | .cfg => true
  | .a => false
  | .b => false
  | .x => false
  | .e => false
  | .res => true
  | .traceCount => true
  | .deftab _ => true
  | .traceLo _ => true
  | .traceHi _ => true

/-- The read-only registers lie where R37 says: four single offsets, the default table and the trace window. -/
theorem regAt_readOnly {off : Nat} (aligned : off % 4 = 0)
    (place : off ∈ [0x0004, 0x0008, 0x001C, 0x0020] ∨ (0x0040 ≤ off ∧ off ≤ 0x007C) ∨
      (0x8000 ≤ off ∧ off ≤ 0xBFFC)) :
    ∃ r, regAt off = some r ∧ r.readOnly = true := by
  simp only [List.mem_cons, List.not_mem_nil, or_false] at place
  obtain ⟨r, wf, rfl⟩ | reserved := offset_cases aligned
  · refine ⟨r, regAt_offset wf, ?_⟩
    cases r <;> simp only [Reg.offset, Reg.readOnly] at place ⊢ <;> omega
  · omega

/-! ### The bus rules (20_memory.md R34, R35, R36) -/

theorem Access.target_eq_reg {acc : Access} {r : Reg} (width : acc.width = .w32) (aligned : acc.off.toNat % 4 = 0)
    (reg : regAt acc.off.toNat = some r) : acc.target = .reg r := by
  simp [Access.target, width, aligned, reg]

theorem Access.target_busError_iff (acc : Access) :
    (∃ c, acc.target = .busError c) ↔
      acc.width ≠ .w32 ∨ acc.off.toNat % 4 ≠ 0 ∨ regAt acc.off.toNat = none := by
  unfold Access.target
  split_ifs with width aligned
  · simp [width]
  · simp [aligned]
  · cases regAt acc.off.toNat <;> simp_all

/-- A command word is no illegal access: it goes on, or it never ends. -/
theorem runCommandWord_ne_busError (w : Word) (s : State) (c : BusCause) :
    runCommandWord w s ≠ .fault (.busError c) := by
  obtain ⟨i, -, run⟩ | ⟨_, -, run⟩ := runCommandWord_cases w s
  · rw [run, exec_eq_frame]
    obtain ⟨_, _, -, out⟩ | ⟨_, _, -, out⟩ | ⟨_, _, -, out⟩ | ⟨_, -, out⟩ :=
      frame_cases i.traced (commandBody i) s <;> simp [out]
  · simp [run]

theorem performAccess_busError_iff (acc : Access) (s : State) (c : BusCause) :
    performAccess acc s = .fault (.busError c) ↔ acc.target = .busError c := by
  obtain ⟨_, target, out⟩ | ⟨_, _, _, -, target, out⟩ | ⟨_, _, v, -, target, out⟩ | ⟨_, _, _, _, -, target, -, out⟩ :=
    performAccess_cases acc s <;> rw [target, out]
  · simp
  · simp
  · simp [runCommandWord_ne_busError]
  · simp

/-- With no command running, the access at the head of the queue is performed. -/
theorem step_eq_performAccess {s : State} {acc : Access} {rest : List Input} (idle : s.busy = false)
    (waiting : s.pending = .access acc :: rest) : step s = performAccess acc (s.setPending rest) := by
  simp [step, performNext, waiting, idle]

/-- Settles O15: the bus rules name the three causes, and no command answers a bus error. -/
theorem busErrorsAreExactlyTheIllegalAccesses : Obligations.BusErrorsAreExactlyTheIllegalAccesses := by
  intro s acc rest idle waiting
  refine ⟨?_, fun c => by simp [afterBusError, waiting, State.setPending, State.setAnswer]⟩
  simp only [step_eq_performAccess idle waiting, performAccess_busError_iff, acc.target_busError_iff]
  by_cases aligned : acc.off.toNat % 4 = 0
  · rw [regAt_eq_none_iff aligned]
  · simp [aligned]

/-! ### What a register write stores (20_memory.md R37 to R40) -/

theorem State.writeReg_idempotent (s : State) (v : Word) (r : Reg) :
    (s.writeReg v r).writeReg v r = s.writeReg v r := by
  cases r <;> rfl

theorem State.writeReg_untouched (s : State) (v : Word) (r : Reg) :
    (s.writeReg v r).res = s.res ∧ (s.writeReg v r).err = s.err ∧ (s.writeReg v r).cfg = s.cfg ∧
      (s.writeReg v r).trace = s.trace := by
  cases r <;> exact ⟨rfl, rfl, rfl, rfl⟩

theorem State.writeReg_of_readOnly {r : Reg} (readOnly : r.readOnly = true) (s : State) (v : Word) :
    s.writeReg v r = s := by
  cases r with
  | cmd | a | b | x | e => cases readOnly
  | _ => rfl

@[simp] theorem State.writeReg_a (s : State) (v : Word) : s.writeReg v .a = s.setA (v.extractLsb' 0 8) := by
  rw [State.writeReg, BitVec.setWidth_eq_extractLsb' (by decide)]

@[simp] theorem State.writeReg_b (s : State) (v : Word) : s.writeReg v .b = s.setB (v.extractLsb' 0 8) := by
  rw [State.writeReg, BitVec.setWidth_eq_extractLsb' (by decide)]

@[simp] theorem State.writeReg_x (s : State) (v : Word) : s.writeReg v .x = s.setX (v.extractLsb' 0 16) := by
  rw [State.writeReg, BitVec.setWidth_eq_extractLsb' (by decide)]

@[simp] theorem State.writeReg_e (s : State) (v : Word) : s.writeReg v .e = s.setE v := rfl

/-- A write of an aligned register other than CMD is answered and stored, and nothing else happens. -/
theorem step_of_write {s : State} {off : Offset} {v : Word} {rest : List Input} {r : Reg} (idle : s.busy = false)
    (waiting : s.pending = .access (.write .w32 off v) :: rest) (aligned : off.toNat % 4 = 0)
    (reg : regAt off.toNat = some r) (notCmd : r ≠ .cmd) :
    step s = .next (((s.setPending rest).setAnswer .written).writeReg v r) := by
  have target : (Access.write .w32 off v).target = .reg r := Access.target_eq_reg rfl aligned reg
  rw [step_eq_performAccess idle waiting]
  simp [performAccess, target, notCmd]

/-- Settles O17: each of the four offsets is its register's, and the write stores the register's bits. -/
theorem operandWritesStoreLowBits : Obligations.OperandWritesStoreLowBits := by
  intro s off v rest idle waiting
  refine ⟨?_, ?_, ?_, ?_⟩ <;> rintro rfl
  · rw [step_of_write (r := .a) idle waiting rfl rfl (by decide), State.writeReg_a]
    rfl
  · rw [step_of_write (r := .b) idle waiting rfl rfl (by decide), State.writeReg_b]
    rfl
  · rw [step_of_write (r := .x) idle waiting rfl rfl (by decide), State.writeReg_x]
    rfl
  · rw [step_of_write (r := .e) idle waiting rfl rfl (by decide), State.writeReg_e]
    rfl

/-- Settles O18: at these offsets stand the read-only registers, and a write stores nothing there. -/
theorem readOnlyWritesChangeNothing : Obligations.ReadOnlyWritesChangeNothing := by
  intro s off v rest idle waiting aligned place
  obtain ⟨r, reg, readOnly⟩ := regAt_readOnly aligned place
  have notCmd : r ≠ .cmd := by rintro rfl; cases readOnly
  rw [step_of_write idle waiting aligned reg notCmd, State.writeReg_of_readOnly readOnly]
  rfl

/-! ### Reads (20_memory.md R33, R40) -/

theorem State.readWindow_eq_some_iff {s : State} {off : Offset} {v : Word} :
    s.readWindow off = some v ↔ ∃ r, (Access.read .w32 off).target = .reg r ∧ s.readReg r = v := by
  unfold State.readWindow
  cases (Access.read .w32 off).target <;> simp

/-- What a read returns comes from the core's registers, not from the queue. -/
theorem State.readReg_host_side (s : State) (p : List Input) (a : Answer) (r : Reg) :
    State.readReg { s with pending := p, answer := a } r = s.readReg r := by
  cases r <;> rfl

theorem State.readWindow_host_side (s : State) (p : List Input) (a : Answer) (off : Offset) :
    State.readWindow { s with pending := p, answer := a } off = s.readWindow off := by
  unfold State.readWindow
  simp only [State.readReg_host_side]

/-- A read that is no bus error answers with the register's word and changes nothing else. -/
theorem step_of_read {s : State} {off : Offset} {v : Word} {rest : List Input} (idle : s.busy = false)
    (waiting : s.pending = .access (.read .w32 off) :: rest) (window : s.readWindow off = some v) :
    step s = .next { s with pending := rest, answer := .data v } := by
  obtain ⟨r, target, rfl⟩ := State.readWindow_eq_some_iff.mp window
  rw [step_eq_performAccess idle waiting]
  simp only [performAccess, target]
  rfl

/-- Settles O16: a read touches the queue and the answer only, and a write stores what it stored before. -/
theorem readsHaveNoSideEffect : Obligations.ReadsHaveNoSideEffect :=
  ⟨fun _ _ _ _ => step_of_read, fun s a p off => s.readWindow_host_side p a off, State.writeReg_idempotent,
    fun s v r => s.writeReg_untouched v r⟩

/-! ### Bits beyond a register's width (20_memory.md R38) -/

/-- The bits above a zero-extended field are 0. -/
theorem extractLsb'_setWidth_above {width : Nat} (field : BitVec width) (start len : Nat) (above : width ≤ start) :
    (field.setWidth 32).extractLsb' start len = 0 := by
  ext i inside
  simp [BitVec.getLsbD_of_ge field (start + i) (by omega)]

theorem FieldCfg.word_reserved (c : FieldCfg) :
    c.word.extractLsb' 4 4 = 0 ∧ c.word.extractLsb' 17 15 = 0 := by
  unfold FieldCfg.word
  constructor
  · rw [BitVec.extractLsb'_append_eq_of_le (by decide), BitVec.extractLsb'_append_eq_right]
  · rw [BitVec.extractLsb'_append_eq_of_le (by decide), BitVec.extractLsb'_append_eq_of_le (by decide),
      BitVec.extractLsb'_append_eq_left]

/-- Settles O19: only the low bits are stored, and every register narrower than a word is read with zeros above its
fields. -/
theorem bitsBeyondTheWidthReadZero : Obligations.BitsBeyondTheWidthReadZero := by
  refine ⟨fun s v v' => ⟨fun low => ?_, fun low => ?_⟩, fun s => ?_⟩
  · simp [low]
  · simp [low]
  · obtain ⟨cfgMid, cfgHigh⟩ := s.cfg.word_reserved
    exact ⟨extractLsb'_setWidth_above _ 8 24 (by decide), extractLsb'_setWidth_above _ 8 24 (by decide),
      extractLsb'_setWidth_above _ 16 16 (by decide), extractLsb'_setWidth_above _ 3 29 (by decide),
      cfgMid, cfgHigh, extractLsb'_setWidth_above _ 16 16 (by decide),
      fun m => extractLsb'_setWidth_above _ 9 23 (by decide)⟩

/-! ### The trace window (20_memory.md R41, 30_encoding.md R56, R57) -/

/-- The tag of a record's variant (30_encoding.md R57). -/
def StepRecord.tag : StepRecord → BitVec 4
  | .mul _ _ _ _ _ _ => 1
  | .reduce _ _ _ => 2
  | .mod _ _ => 3
  | .exp _ _ _ _ _ => 4
  | .egcd _ _ _ _ _ _ => 5

@[simp] theorem recordTag_word (rec : StepRecord) : recordTag rec.word = rec.tag := by
  cases rec <;>
    · simp only [recordTag, StepRecord.word, StepRecord.tag]
      repeat rw [BitVec.extractLsb'_append_eq_of_le (by decide)]
      exact BitVec.extractLsb'_eq_self

theorem StepRecord.tag_ne_zero (rec : StepRecord) : rec.tag ≠ 0 := by
  cases rec <;> simp [StepRecord.tag]

/-- The tag lies in the high word, so the high word of a record is not 0. -/
theorem StepRecord.highWord_ne_zero (rec : StepRecord) : rec.word.extractLsb' 32 32 ≠ 0 := by
  intro zero
  have tag : recordTag rec.word = (rec.word.extractLsb' 32 32).extractLsb' 28 4 := by
    ext i inside
    have inHigh : 28 + i < 32 := by omega
    simp [recordTag, ← Nat.add_assoc, inHigh]
  rw [recordTag_word, zero] at tag
  exact rec.tag_ne_zero tag

theorem State.recordWord_of_getElem? {s : State} {k : Nat} {rec : StepRecord} (h : s.trace[k]? = some rec) :
    s.recordWord k = rec.word := by
  simp [State.recordWord, h]

/-- Settles O21: a record's word is read in two halves, and its tag, which is not 0, stands in the high one. -/
theorem traceWindowReadsRecords : Obligations.TraceWindowReadsRecords := by
  refine fun s k => ⟨fun rec h => ?_, fun beyond => ?_⟩
  · have word := State.recordWord_of_getElem? h
    refine ⟨?_, ?_, ?_⟩ <;> rw [State.readReg, word]
    exact rec.highWord_ne_zero
  · simp [State.readReg, State.recordWord_of_traceCount_le beyond]

end Sys2Proof.Machine
end

section
/-! The encoding of commands (30_encoding.md R50 to R55): the fields of a word, the opcode map, which words are
illegal and what such a word does, and the form of a command's result. -/

namespace Sys2Proof

/-! ### The fields of a command word (30_encoding.md R50) -/

@[simp] theorem opField_toNat (w : Word) : (opField w).toNat = w.toNat % 16 := by
  simp [opField]

theorem rsvField_eq_zero_iff (w : Word) : rsvField w = 0 ↔ w.toNat < 32 := by
  have width : w.toNat < 2 ^ 32 := w.isLt
  rw [← BitVec.toNat_inj, rsvField, BitVec.extractLsb'_toNat, Nat.shiftRight_eq_div_pow]
  change w.toNat / 2 ^ 5 % 2 ^ 27 = 0 ↔ w.toNat < 32
  omega

/-- A word is its three fields, side by side. -/
theorem fields_append (w : Word) : rsvField w ++ BitVec.ofBool (tField w) ++ opField w = w := by
  have bit : BitVec.ofBool (tField w) = w.extractLsb' 4 1 := by
    ext j inside
    obtain rfl : j = 0 := by omega
    simp [tField]
  rw [rsvField, bit, opField, BitVec.extractLsb'_append_extractLsb'_eq_extractLsb' (start₂ := 5) rfl,
    BitVec.extractLsb'_append_extractLsb'_eq_extractLsb' (start₂ := 4) rfl]
  exact BitVec.extractLsb'_eq_self

theorem encode_eq_setWidth (i : Instr) : encode i = (BitVec.ofBool i.traced ++ opcode i).setWidth 32 := by
  rw [encode, BitVec.append_assoc, BitVec.setWidth_eq_append (by decide)]
  rfl

/-- The mask of the opcode table leaves out T alone (30_encoding.md R51). -/
theorem fields_masked : ∀ (t : Bool) (op : BitVec 4),
    (BitVec.ofBool t ++ op).setWidth 32 &&& (0xFFFFFFEF : Word) = op.setWidth 32 := by decide

/-! ### The opcode map (30_encoding.md R51) -/

theorem opmap_isSome_iff : ∀ (op : BitVec 4) (t : Bool), (opmap op t).isSome ↔ 1 ≤ op.toNat ∧ op.toNat ≤ 9 := by
  decide

theorem opmap_opcode (i : Instr) : opmap (opcode i) i.traced = some i := by
  cases i <;> rfl

theorem opmap_eq_none {op : BitVec 4} (reserved : op.toNat = 0 ∨ 9 < op.toNat) (t : Bool) : opmap op t = none := by
  rw [← Option.not_isSome_iff_eq_none, opmap_isSome_iff]
  omega

theorem opmap_eq_some_iff {op : BitVec 4} {t : Bool} {i : Instr} :
    opmap op t = some i ↔ op = opcode i ∧ t = i.traced := by
  refine ⟨fun h => ?_, fun ⟨hop, ht⟩ => hop ▸ ht ▸ opmap_opcode i⟩
  unfold opmap at h
  split at h <;> cases h <;> exact ⟨BitVec.eq_of_toNat_eq ‹_›, rfl⟩

/-! ### The decoder (30_encoding.md R52) -/

theorem decodeWord_eq_command_iff {w : Word} {i : Instr} :
    decodeWord w = .command i ↔ rsvField w = 0 ∧ opField w = opcode i ∧ tField w = i.traced := by
  rw [← opmap_eq_some_iff, decodeWord]
  by_cases clear : rsvField w = 0
  · rw [if_neg (not_not.mpr clear)]
    cases opmap (opField w) (tField w) <;> simp [clear]
  · rw [if_pos clear]
    exact ⟨nofun, fun ⟨zero, _⟩ => absurd zero clear⟩

theorem exists_command_iff (w : Word) :
    (∃ i, decodeWord w = .command i) ↔ rsvField w = 0 ∧ 1 ≤ (opField w).toNat ∧ (opField w).toNat ≤ 9 := by
  simp only [decodeWord_eq_command_iff, ← opmap_eq_some_iff, exists_and_left, ← Option.isSome_iff_exists,
    opmap_isSome_iff]

theorem exists_illegal_iff (w : Word) :
    (∃ why, decodeWord w = .illegal why) ↔ rsvField w ≠ 0 ∨ (opField w).toNat = 0 ∨ 9 < (opField w).toNat := by
  have total : (∃ why, decodeWord w = .illegal why) ↔ ¬ ∃ i, decodeWord w = .command i := by
    cases decodeWord w <;> simp
  rw [total, exists_command_iff, not_and_or]
  exact or_congr_right (by omega)

/-- A word that decodes to a command is the command's own word. -/
theorem eq_encode_of_decodeWord {w : Word} {i : Instr} (h : decodeWord w = .command i) : w = encode i := by
  obtain ⟨rsv, op, t⟩ := decodeWord_eq_command_iff.mp h
  rw [← fields_append w, rsv, op, t, encode]

/-- Settles O6: the command is read off the opcode map, and every word that has none is illegal. -/
theorem decoderFollowsItsRule : Obligations.DecoderFollowsItsRule := by
  refine fun w => ⟨fun reserved => ?_, fun clear op hop lo hi => ?_, fun _ reserved => ?_⟩
  · exact (exists_illegal_iff w).mpr (.inl reserved)
  · subst hop
    obtain ⟨i, h⟩ := (exists_command_iff w).mpr ⟨clear, lo, hi⟩
    obtain ⟨-, opEq, tEq⟩ := decodeWord_eq_command_iff.mp h
    exact ⟨i, h, congrArg BitVec.toNat opEq.symm, tEq.symm⟩
  · exact (exists_illegal_iff w).mpr (.inr reserved)

/-- Settles O7: the map entry by entry, a legal word as its command's encoding, and the legal words by their OP among
the words below 32. -/
theorem opcodeMapIsTheTable : Obligations.OpcodeMapIsTheTable := by
  refine ⟨fun t => ⟨rfl, rfl, rfl, rfl, rfl, rfl, rfl, rfl, rfl, rfl, fun op high => ?_⟩, fun w i h => ?_, fun w => ?_⟩
  · exact opmap_eq_none (.inr high) t
  · have word : w = (BitVec.ofBool i.traced ++ opcode i).setWidth 32 :=
      (eq_encode_of_decodeWord h).trans (encode_eq_setWidth i)
    exact ⟨word, word ▸ fields_masked i.traced (opcode i)⟩
  · rw [exists_command_iff, rsvField_eq_zero_iff, opField_toNat]
    omega

end Sys2Proof

namespace Sys2Proof.Machine

/-! ### Illegal command words (30_encoding.md R53) -/

/-- A word of CMD is run on the state that has taken the access from the queue and answered it. -/
theorem step_of_cmdWrite {s : State} {w : Word} {rest : List Input} (idle : s.busy = false)
    (waiting : s.pending = cmdWrite w :: rest) :
    step s = runCommandWord w ((s.setPending rest).setAnswer .written) :=
  step_eq_performAccess idle waiting

theorem runCommandWord_of_illegal {w : Word} {why : IllegalReason} (illegal : decodeWord w = .illegal why)
    (s : State) : runCommandWord w s = .next (s.setErr (.raised .illegalCommand)) := by
  obtain ⟨i, command, -⟩ | ⟨-, -, run⟩ := runCommandWord_cases w s
  · rw [illegal] at command
    cases command
  · exact run

/-- Settles O10: the illegal words by their fields, and the step of one through the illegal arm of the command port. -/
theorem illegalCommandSetsOnlyTheError : Obligations.IllegalCommandSetsOnlyTheError := by
  refine ⟨fun w => ?_, fun s w why rest idle waiting illegal => ?_, rfl⟩
  · rw [exists_illegal_iff]
    refine or_congr_right ?_
    have width : (opField w).toNat < 16 := (opField w).isLt
    simp only [opField] at width ⊢
    simp only [List.mem_cons, List.not_mem_nil, or_false]
    omega
  · rw [step_of_cmdWrite idle waiting, runCommandWord_of_illegal illegal]
    rfl

/-! ### Element results lie below 2^M (30_encoding.md R55) -/

/-- Every value a datapath run answers is an element of the configured field's width. -/
def Run.IsElement (c : FieldCfg) (run : Run Nat) : Prop := ∀ v, run.result = .value v → v < 2 ^ c.degree

theorem Run.isElement_pure {c : FieldCfg} {v : Nat} (h : v < 2 ^ c.degree) : (Run.pure v).IsElement c := by
  rintro _ ⟨⟩
  exact h

theorem Run.isElement_bind {α : Type} {c : FieldCfg} {first : Run α} {next : α → Run Nat}
    (h : ∀ v, first.result = .value v → (next v).IsElement c) : (first.bind next).IsElement c := by
  intro w hw
  obtain ⟨v, hv, hnext⟩ := Run.bind_value_cases hw
  exact h v hv w hnext

/-- The reducer masks its result. -/
theorem reduce_isElement (c : FieldCfg) (on : Bool) (x : Nat) : (reduce c on x).IsElement c := by
  intro v h
  unfold reduce at h
  split at h
  · cases h
  · cases h
    exact maskBits_lt _ _

theorem multiply_isElement (c : FieldCfg) (on : Bool) (a b : Nat) : (multiply c on a b).IsElement c :=
  reduce_isElement c on (rawProduct a b c.degree)

theorem invert_isElement (c : FieldCfg) (nested on : Bool) (a : Nat) : (invert c nested on a).IsElement c := by
  unfold invert
  split
  · rintro _ ⟨⟩
  · exact Run.isElement_bind fun g1 _ => reduce_isElement c _ g1

theorem divide_isElement (c : FieldCfg) (nested on : Bool) (a b : Nat) : (divide c nested on a b).IsElement c :=
  Run.isElement_bind fun y _ => multiply_isElement c on a y

/-- The accumulator of the exponentiator is an element in every iteration. -/
theorem powerLoop_isElement (c : FieldCfg) (nested on : Bool) (fuel e b acc : Nat) (element : acc < 2 ^ c.degree) :
    (powerLoop c nested on fuel e b acc).IsElement c := by
  induction fuel generalizing e b acc with
  | zero => exact Run.isElement_pure element
  | succ fuel ih =>
    unfold powerLoop
    split
    · exact Run.isElement_pure element
    · refine Run.isElement_bind fun acc' next => ?_
      have element' : acc' < 2 ^ c.degree := by
        split at next
        · exact multiply_isElement c _ acc b acc' next
        · exact Run.isElement_pure element acc' next
      exact Run.isElement_bind fun _ _ => Run.isElement_bind fun _ _ => ih _ _ acc' element'

theorem power_isElement {c : FieldCfg} (valid : c.valid) (nested on : Bool) (base e : Nat) :
    (power c nested on base e).IsElement c := by
  obtain ⟨lo, -⟩ := valid
  have degree : c.degree ≠ 0 := Nat.ne_of_gt (Nat.lt_of_lt_of_le (by decide) lo)
  exact powerLoop_isElement c nested on powerFuel e base 1 (Nat.one_lt_two_pow degree)

theorem elementResult_toNat_lt {v n : Nat} (h : v < n) : (elementResult v).toNat < n :=
  Nat.lt_of_le_of_lt (Nat.mod_le v _) h

theorem Run.IsElement.toRes {c : FieldCfg} {run : Run Nat} (h : run.IsElement c) {v : BitVec 32}
    (value : run.toRes.result = .value (.writeRes v)) : v.toNat < 2 ^ c.degree := by
  obtain ⟨n, result, out⟩ | ⟨_, -, out⟩ | ⟨-, out⟩ := run.toRes_result_cases <;> rw [out] at value <;> cases value
  exact elementResult_toNat_lt (h n result)

/-- Every command that returns a value, but DEG, writes an element to RES. -/
theorem commandBody_writes_element {i : Instr} {s : State} {v : BitVec 32} (valid : s.cfg.valid)
    (returns : isConfig i = false) (notDeg : ∀ t, i ≠ .deg t)
    (h : (commandBody i s).result = .value (.writeRes v)) : v.toNat < 2 ^ s.cfg.degree := by
  cases i with
  | setcfg _ => cases returns
  | defcfg _ => cases returns
  | deg t => exact absurd rfl (notDeg t)
  | add _ =>
    cases h
    exact elementResult_toNat_lt (maskBits_lt _ _)
  | red _ => exact (reduce_isElement _ _ _).toRes h
  | mul _ => exact (multiply_isElement _ _ _ _).toRes h
  | pow _ => exact (power_isElement valid _ _ _ _).toRes h
  | inv _ => exact (invert_isElement _ _ _ _).toRes h
  | div _ => exact (divide_isElement _ _ _ _ _).toRes h

/-! ### The result of DEG in two's complement (30_encoding.md R55) -/

theorem deg_le_fifteen (x : BitVec 16) : deg x.toNat ≤ 15 :=
  Int.lt_add_one_iff.mp ((deg_lt_iff x.toNat 16).mpr x.isLt)

theorem degreeResult_toInt {d : Int} (lo : -1 ≤ d) (hi : d ≤ 15) : (degreeResult d).toInt = d :=
  BitVec.toInt_ofInt_eq_self (by decide) (by omega) (by omega)

/-! ### What a successful command leaves in RES -/

theorem isConfig_of_writes_cfg {i : Instr} {s : State} {c : FieldCfg}
    (h : (commandBody i s).result = .value (.writeCfg c)) : isConfig i = true := by
  cases i with
  | setcfg _ | defcfg _ => rfl
  | deg _ | add _ => cases h
  | red _ | mul _ | pow _ | inv _ | div _ => exact absurd h (Run.toRes_writes_no_cfg _ c)

/-- A command that returns a value and succeeds leaves in RES what its body wrote. -/
theorem commandBody_result_of_success {i : Instr} {s t : State} (returns : isConfig i = false)
    (h : exec i s = .next t) (ok : t.err = .clear) :
    (commandBody i (s.beginCommand i.traced)).result = .value (.writeRes t.res) := by
  rw [exec_eq_frame] at h
  obtain ⟨_, _, body, out⟩ | ⟨_, _, body, -⟩ | ⟨_, _, -, out⟩ | ⟨_, -, out⟩ :=
    frame_cases i.traced (commandBody i) s
  · rw [out] at h
    cases h
    exact congrArg Run.result body
  · cases returns.symm.trans (isConfig_of_writes_cfg (congrArg Run.result body))
  · rw [out] at h
    cases h
    cases ok
  · rw [out] at h
    cases h

theorem deg_result_of_success {tr : Bool} {s t : State} (h : exec (.deg tr) s = .next t) (ok : t.err = .clear) :
    t.res = degreeResult (deg s.x.toNat) := by
  have body : Result.value (Effect.writeRes (degreeResult (deg s.x.toNat))) = .value (.writeRes t.res) :=
    commandBody_result_of_success rfl h ok
  injection body with body
  injection body with body
  exact body.symm

/-- Settles O54: RES holds what the body wrote, which is the degree for DEG and an element for the others. -/
theorem resultsHaveTheirForm : Obligations.ResultsHaveTheirForm := by
  intro i s t valid h ok
  refine ⟨fun isDeg => ?_, fun returns notTraced notUntraced => ?_⟩
  · have res : t.res = degreeResult (deg s.x.toNat) := by
      obtain rfl | rfl := isDeg <;> exact deg_result_of_success h ok
    have lo := neg_one_le_deg s.x.toNat
    have hi := deg_le_fifteen s.x
    rw [res, degreeResult_toInt lo hi]
    exact ⟨lo, hi, rfl⟩
  · have notDeg (tr : Bool) : i ≠ .deg tr := by
      cases tr
      · exact notUntraced
      · exact notTraced
    exact commandBody_writes_element (s := s.beginCommand i.traced) valid returns notDeg
      (commandBody_result_of_success returns h ok)

end Sys2Proof.Machine
end

section
/-! The configuration commands SETCFG and DEFCFG (40_configuration.md R66, R67): what each body answers, and through
the command frame the whole next state. -/

namespace Sys2Proof.Machine

/-- The degree is m exactly between two neighbouring powers of two (41_primitives.md R70). -/
theorem deg_eq_iff (p m : Nat) : deg p = (m : Int) ↔ 2 ^ m ≤ p ∧ p < 2 ^ (m + 1) := by
  have below := deg_lt_iff p m
  have upTo := deg_lt_iff p (m + 1)
  omega

/-! ### What the bodies answer -/

theorem setcfgBody_of_badDegree {s : State} (bad : badDegree s.rawA) :
    setcfgBody s = Run.raise .invalidFieldSize := if_pos bad

theorem setcfgBody_of_deg_ne {s : State} (legal : ¬ badDegree s.rawA) (other : deg s.rawX ≠ (s.rawA : Int)) :
    setcfgBody s = Run.raise .invalidModulus := (if_neg legal).trans (if_pos other)

theorem setcfgBody_of_deg_eq {s : State} (legal : ¬ badDegree s.rawA) (degree : deg s.rawX = (s.rawA : Int)) :
    setcfgBody s = Run.pure (.writeCfg { m := s.a.extractLsb' 0 4, poly := s.x.extractLsb' 0 9 }) :=
  (if_neg legal).trans (if_neg (not_not.mpr degree))

theorem defcfgBody_of_badDegree {s : State} (bad : badDegree s.rawA) :
    defcfgBody s = Run.raise .invalidFieldSize := if_pos bad

theorem defcfgBody_of_legal {s : State} (legal : ¬ badDegree s.rawA) :
    defcfgBody s = Run.pure (.writeCfg { m := s.a.extractLsb' 0 4, poly := deftab s.a.toNat }) := if_neg legal

/-! ### The commands whose body records nothing -/

theorem exec_of_raise {i : Instr} {s : State} {e : CoreError}
    (body : commandBody i (s.beginCommand i.traced) = Run.raise e) :
    exec i s = .next (commandDone s (.raised e) []) :=
  (exec_eq_frame i s).trans (frame_raises body (Nat.zero_le _))

theorem exec_of_pure_writeCfg {i : Instr} {s : State} {c : FieldCfg}
    (body : commandBody i (s.beginCommand i.traced) = Run.pure (.writeCfg c)) :
    exec i s = .next { commandDone s .clear [] with cfg := c } :=
  (exec_eq_frame i s).trans (frame_writes_cfg body (Nat.zero_le _))

/-- Settles O26: the three answers of the body, the modulus check read as a range of X, each through the frame. -/
theorem setcfgLoadsOrRejects : Obligations.SetcfgLoadsOrRejects := by
  refine ⟨by decide, fun t s => ⟨fun bad => ?_, fun lo hi other => ?_, fun lo hi above below => ?_⟩⟩
  · exact exec_of_raise (setcfgBody_of_badDegree bad)
  · have degree : deg s.x.toNat ≠ (s.a.toNat : Int) := by
      rw [ne_eq, deg_eq_iff]
      omega
    exact exec_of_raise (setcfgBody_of_deg_ne (not_badDegree_iff.mpr ⟨lo, hi⟩) degree)
  · have degree : deg s.x.toNat = (s.a.toNat : Int) := (deg_eq_iff _ _).mpr ⟨above, below⟩
    exact exec_of_pure_writeCfg (setcfgBody_of_deg_eq (not_badDegree_iff.mpr ⟨lo, hi⟩) degree)

/-- Settles O27: the two answers of the body, each through the frame. -/
theorem defcfgLoadsTheTable : Obligations.DefcfgLoadsTheTable := by
  refine ⟨by decide, fun t s => ⟨fun bad => ?_, fun lo hi => ?_⟩⟩
  · exact exec_of_raise (defcfgBody_of_badDegree bad)
  · exact exec_of_pure_writeCfg (defcfgBody_of_legal (not_badDegree_iff.mpr ⟨lo, hi⟩))

end Sys2Proof.Machine
end

section
/-! The polynomial primitives DEG and ADD (41_primitives.md R70 to R75): the degree as the highest set bit, field
addition as XOR, and through the command frame the whole next state. -/

namespace Sys2Proof.Machine

/-! ### The degree (41_primitives.md R70) -/

/-- Settles O29: the degree lies between two neighbouring powers of two, and any index that does is the degree. -/
theorem degreeIsTheHighestBit : Obligations.DegreeIsTheHighestBit := by
  refine ⟨deg_zero, fun p positive => ?_⟩
  have degree : deg p = (p.log2 : Int) := deg_of_ne_zero (Nat.ne_of_gt positive)
  obtain ⟨above, below⟩ := (deg_eq_iff p p.log2).mp degree
  refine ⟨p.log2, degree, above, below, fun d' above' below' => ?_⟩
  have degree' : deg p = (d' : Int) := (deg_eq_iff p d').mpr ⟨above', below'⟩
  exact Int.ofNat_inj.mp (degree'.symm.trans degree)

/-! ### Field addition (41_primitives.md R72, R75) -/

theorem fieldAdd_eq_mod (c : FieldCfg) (a b : Nat) : fieldAdd c a b = (a ^^^ b) % 2 ^ c.degree :=
  maskBits_eq_mod c.degree (a ^^^ b)

/-- Masking the operands first changes no sum (41_primitives.md R71, R74). -/
theorem fieldAdd_mask (c : FieldCfg) (a b : Nat) : fieldAdd c (c.mask a) (c.mask b) = fieldAdd c a b := by
  simp only [fieldAdd_eq_mod, FieldCfg.mask, maskBits_eq_mod, Nat.xor_mod_two_pow, Nat.mod_mod]

/-- On elements the mask cuts nothing. -/
theorem fieldAdd_of_lt {c : FieldCfg} {a b : Nat} (ha : a < 2 ^ c.degree) (hb : b < 2 ^ c.degree) :
    fieldAdd c a b = a ^^^ b := maskBits_of_lt (Nat.xor_lt_two_pow ha hb)

/-- Settles O32: every sum is the XOR, since zero and the sums are elements too; the laws are those of XOR. -/
theorem additionLaws : Obligations.AdditionLaws := by
  intro c a b d ha hb hd
  have hab : a ^^^ b < 2 ^ c.degree := Nat.xor_lt_two_pow ha hb
  have hbd : b ^^^ d < 2 ^ c.degree := Nat.xor_lt_two_pow hb hd
  rw [fieldAdd_of_lt ha hb, fieldAdd_of_lt ha (Nat.two_pow_pos _), fieldAdd_of_lt ha ha, fieldAdd_of_lt hb ha,
    fieldAdd_of_lt hb hd, fieldAdd_of_lt hab hd, fieldAdd_of_lt ha hbd]
  exact ⟨rfl, hab, Nat.xor_zero a, Nat.xor_self a, Nat.xor_comm a b, Nat.xor_assoc a b d⟩

/-! ### The commands -/

/-- A command whose body records nothing and answers a result writes RES, clears the error and empties the trace. -/
theorem exec_of_pure_writeRes {i : Instr} {s : State} {v : BitVec 32}
    (body : commandBody i (s.beginCommand i.traced) = Run.pure (.writeRes v)) :
    exec i s = .next { commandDone s .clear [] with res := v } :=
  (exec_eq_frame i s).trans (frame_writes_res body (Nat.zero_le _))

/-- DEG in every state, whatever CFG is (41_primitives.md R73). -/
theorem exec_deg (t : Bool) (s : State) :
    exec (.deg t) s = .next { commandDone s .clear [] with res := degreeResult (deg s.x.toNat) } :=
  exec_of_pure_writeRes rfl

/-- ADD in every state (41_primitives.md R74). -/
theorem exec_add (t : Bool) (s : State) :
    exec (.add t) s = .next (resultDone s [] (fieldAdd s.cfg (s.cfg.mask s.a.toNat) (s.cfg.mask s.b.toNat))) :=
  exec_of_pure_writeRes rfl

theorem degreeResult_natCast (d : Nat) : degreeResult (d : Int) = BitVec.ofNat 32 d := BitVec.ofInt_natCast 32 d

/-- Settles O30: the command writes the degree of X, which is -1 for 0 and else the index that the two powers of two
fix. -/
theorem degWritesTheDegree : Obligations.DegWritesTheDegree := by
  refine ⟨by decide, fun t s => ⟨fun zero => ?_, fun d above below => ?_⟩⟩
  · rw [exec_deg, zero]
    rfl
  · have degree : deg s.x.toNat = (d : Int) := (deg_eq_iff _ d).mpr ⟨above, below⟩
    rw [exec_deg, degree, degreeResult_natCast]
    rfl

/-- Settles O31: the command adds the masked operands, and their sum is that of the raw ones. -/
theorem addWritesTheMaskedXor : Obligations.AddWritesTheMaskedXor := by
  refine ⟨by decide, fun t s => ?_⟩
  rw [exec_add, fieldAdd_mask, fieldAdd_eq_mod]

end Sys2Proof.Machine
end

section
/-! The carry-less product of polynomials over GF(2) (00_scope.md R9), and congruence modulo a polynomial. -/

namespace Sys2Proof.Machine

/-! ### The product is linear in its first operand -/

theorem clmulBits_xor_left (a a' b n : Nat) :
    clmulBits (a ^^^ a') b n = clmulBits a b n ^^^ clmulBits a' b n := by
  induction n with
  | zero => exact (Nat.xor_self 0).symm
  | succ n ih =>
    simp only [clmulBits, ih]
    split
    · simp only [Nat.shiftLeft_xor_distrib, Nat.xor_assoc, Nat.xor_left_comm]
    · simp only [Nat.xor_zero]

theorem clmulBits_shiftLeft_left (a b k n : Nat) : clmulBits (a <<< k) b n = clmulBits a b n <<< k := by
  induction n with
  | zero => exact (Nat.zero_shiftLeft k).symm
  | succ n ih =>
    simp only [clmulBits, ih, Nat.shiftLeft_xor_distrib]
    split
    · rw [← Nat.shiftLeft_add, ← Nat.shiftLeft_add, Nat.add_comm]
    · rw [Nat.zero_shiftLeft]

/-- Keeping one bit more adds the copy of 1 that this bit selects. -/
theorem mod_two_pow_succ_eq_xor (b n : Nat) :
    b % 2 ^ (n + 1) = b % 2 ^ n ^^^ (if b.testBit n then 1 <<< n else 0) := by
  refine Nat.eq_of_testBit_eq fun j => ?_
  by_cases top : j = n
  · subst top
    cases bit : b.testBit j <;> simp [Nat.testBit_mod_two_pow, bit]
  · have copy : (if b.testBit n then 1 <<< n else 0).testBit j = false := by
      split <;> simp [Nat.one_shiftLeft, Ne.symm top]
    have range : j < n + 1 ↔ j < n := by omega
    simp [Nat.testBit_mod_two_pow, copy, range]

theorem clmulBits_one_left (b n : Nat) : clmulBits 1 b n = b % 2 ^ n := by
  induction n with
  | zero => exact (Nat.mod_one b).symm
  | succ n ih => rw [clmulBits, ih, mod_two_pow_succ_eq_xor]

theorem clmul_xor_left (a a' b : Nat) : clmul (a ^^^ a') b = clmul a b ^^^ clmul a' b :=
  clmulBits_xor_left a a' b _

theorem clmul_shiftLeft_left (a b k : Nat) : clmul (a <<< k) b = clmul a b <<< k :=
  clmulBits_shiftLeft_left a b k _

@[simp] theorem clmul_one_left (b : Nat) : clmul 1 b = b := by
  rw [clmul, clmulBits_one_left, Nat.mod_eq_of_lt Nat.lt_log2_self]

@[simp] theorem clmul_zero_left (b : Nat) : clmul 0 b = 0 := by
  simpa only [Nat.xor_self] using clmul_xor_left 0 0 b

/-! ### The degree of a product -/

theorem clmulBits_lt {a k : Nat} (ha : a < 2 ^ (k + 1)) (b n : Nat) : clmulBits a b n < 2 ^ (k + n) := by
  induction n with
  | zero => exact Nat.two_pow_pos _
  | succ n ih =>
    have before : clmulBits a b n < 2 ^ (k + (n + 1)) := Nat.lt_trans ih (Nat.pow_lt_pow_right (by decide) (by omega))
    have copy : a <<< n < 2 ^ (k + (n + 1)) := by
      rw [show k + (n + 1) = k + 1 + n by omega]
      exact Nat.shiftLeft_lt ha
    rw [clmulBits]
    split
    · exact Nat.xor_lt_two_pow before copy
    · rwa [Nat.xor_zero]

/-- The last copy of `a` has the top bit, and no earlier copy reaches it. -/
theorem testBit_clmul_top {a b : Nat} (ha : a ≠ 0) (hb : b ≠ 0) :
    (clmul a b).testBit (a.log2 + b.log2) = true := by
  have before : (clmulBits a b b.log2).testBit (a.log2 + b.log2) = false :=
    Nat.testBit_lt_two_pow (clmulBits_lt Nat.lt_log2_self b b.log2)
  rw [clmul, clmulBits, if_pos (Nat.testBit_log2 hb), Nat.testBit_xor, before, Nat.testBit_shiftLeft]
  simp [Nat.testBit_log2 ha]

theorem deg_clmul {a b : Nat} (ha : a ≠ 0) (hb : b ≠ 0) : deg (clmul a b) = deg a + deg b := by
  rw [deg_of_ne_zero ha, deg_of_ne_zero hb, ← Int.natCast_add, deg_eq_iff]
  exact ⟨Nat.ge_two_pow_of_testBit (testBit_clmul_top ha hb), clmulBits_lt Nat.lt_log2_self b (b.log2 + 1)⟩

/-! ### Congruence -/

theorem congruent_iff_xor {x y d : Nat} : congruent x y d ↔ ∃ q, x ^^^ y = clmul q d := by
  refine exists_congr fun q => ⟨fun h => ?_, fun h => ?_⟩
  · rw [h, Nat.xor_comm y, Nat.xor_xor_cancel_right]
  · rw [← h, Nat.xor_comm x, Nat.xor_xor_cancel_left]

theorem congruent_refl (x d : Nat) : congruent x x d := congruent_iff_xor.mpr ⟨0, by simp⟩

theorem congruent_symm {x y d : Nat} (h : congruent x y d) : congruent y x d := by
  rw [congruent_iff_xor, Nat.xor_comm]
  exact congruent_iff_xor.mp h

theorem congruent_trans {x y z d : Nat} (hxy : congruent x y d) (hyz : congruent y z d) : congruent x z d := by
  obtain ⟨q, rfl⟩ := hxy
  obtain ⟨q', rfl⟩ := hyz
  exact ⟨q' ^^^ q, by rw [clmul_xor_left, Nat.xor_assoc]⟩

/-- Adding a shifted copy of the modulus adds a multiple of it (42_reducer.md R79). -/
theorem congruent_xor_shiftLeft (r d k : Nat) : congruent r (r ^^^ (d <<< k)) d := by
  refine congruent_iff_xor.mpr ⟨1 <<< k, ?_⟩
  rw [clmul_shiftLeft_left, clmul_one_left, Nat.xor_xor_cancel_left]

/-- No multiple of the modulus but 0 has a lower degree, so congruent remainders are equal (42_reducer.md R79). -/
theorem eq_of_congruent {r r' d m : Nat} (degree : deg d = (m : Int)) (hr : r < 2 ^ m) (hr' : r' < 2 ^ m)
    (h : congruent r r' d) : r = r' := by
  obtain ⟨q, difference⟩ := congruent_iff_xor.mp h
  by_cases zero : q = 0
  · rw [zero, clmul_zero_left] at difference
    exact Nat.xor_eq_zero_iff.mp difference
  · have low : deg (clmul q d) < (m : Int) := difference ▸ (deg_lt_iff _ m).mpr (Nat.xor_lt_two_pow hr hr')
    rw [deg_clmul zero (ne_zero_of_deg_eq degree), degree, deg_of_ne_zero zero] at low
    omega

end Sys2Proof.Machine
end

section
/-! The reducer and RED (42_reducer.md R76 to R79): the loop makes the passes of the rule, the passes lead to the
remainder, and through the command frame the whole next state. -/

namespace Sys2Proof.Machine

/-! ### Passes of a reduction (42_reducer.md R76) -/

/-- Cancelling the leading term lowers the degree. -/
theorem deg_cancel_lt {d r : Nat} (hd : d ≠ 0) (h : deg d ≤ deg r) :
    deg (r ^^^ (d <<< (deg r - deg d).toNat)) < deg r := by
  have hr : r ≠ 0 := by
    rintro rfl
    rw [deg_zero, deg_of_ne_zero hd] at h
    omega
  have lower := cancel_lowers hd h r.log2 Nat.lt_log2_self (Nat.log2_self_le hr)
  rwa [← deg_lt_iff, ← deg_of_ne_zero hr] at lower

theorem ReduceSteps.deg_lt {P r last : Nat} {steps : List (Nat × Nat × Nat)} (h : ReduceSteps P r steps last) :
    deg last < deg P := by
  induction steps generalizing r with
  | nil =>
    obtain ⟨rfl, low⟩ := h
    exact low
  | cons pass rest ih =>
    obtain ⟨-, -, -, -, -, restSteps⟩ := h
    exact ih restSteps

/-- Every pass lowers the degree, so there are at most as many as the degree is too high. -/
theorem ReduceSteps.length_le {P r last : Nat} {steps : List (Nat × Nat × Nat)} (h : ReduceSteps P r steps last) :
    (steps.length : Int) ≤ max 0 (deg r - deg P + 1) := by
  induction steps generalizing r with
  | nil => exact Int.le_max_left _ _
  | cons pass rest ih =>
    obtain ⟨high, -, -, -, lower, restSteps⟩ := h
    have restLength := ih restSteps
    simp only [List.length_cons]
    omega

/-- Every pass adds a multiple of the modulus. -/
theorem ReduceSteps.congruent_last {P r last : Nat} {steps : List (Nat × Nat × Nat)} (h : ReduceSteps P r steps last) :
    congruent r last P := by
  induction steps generalizing r with
  | nil =>
    obtain ⟨rfl, -⟩ := h
    exact congruent_refl _ P
  | cons pass rest ih =>
    obtain ⟨shift, before, after⟩ := pass
    obtain ⟨-, -, -, rfl, -, restSteps⟩ := h
    exact congruent_trans (congruent_xor_shiftLeft r P shift) (ih restSteps)

/-! ### The loop makes these passes -/

/-- The Reduce record of a pass (shift, before, after). -/
def passRecord (pass : Nat × Nat × Nat) : StepRecord := reduceRecord pass.1 pass.2.1 pass.2.2

theorem reduceLoop_of_deg_lt {P r : Nat} (low : deg r < deg P) (on : Bool) (fuel : Nat) :
    reduceLoop on P fuel r = ([], r) := by
  cases fuel with
  | zero => rfl
  | succ fuel => exact if_pos low

/-- One pass of the traced loop. -/
theorem reduceLoop_of_deg_le {P r : Nat} (high : deg P ≤ deg r) (fuel : Nat) :
    reduceLoop true P (fuel + 1) r =
      (passRecord ((deg r - deg P).toNat, r, r ^^^ (P <<< (deg r - deg P).toNat)) ::
          (reduceLoop true P fuel (r ^^^ (P <<< (deg r - deg P).toNat))).1,
        (reduceLoop true P fuel (r ^^^ (P <<< (deg r - deg P).toNat))).2) :=
  if_neg (not_lt.mpr high)

/-- With fuel above the degree of `r` the loop makes all passes of the rule, and records each. -/
theorem reduceLoop_follows_steps {P : Nat} (hP : P ≠ 0) (fuel r : Nat) (room : deg r < (fuel : Int)) :
    ∃ steps, ReduceSteps P r steps (reduceLoop true P fuel r).2 ∧
      (reduceLoop true P fuel r).1 = steps.map passRecord := by
  have stop {fuel r : Nat} (low : deg r < deg P) : ∃ steps, ReduceSteps P r steps (reduceLoop true P fuel r).2 ∧
      (reduceLoop true P fuel r).1 = steps.map passRecord := by
    rw [reduceLoop_of_deg_lt low]
    exact ⟨[], ⟨rfl, low⟩, rfl⟩
  induction fuel generalizing r with
  | zero => exact stop (by rw [deg_of_ne_zero hP]; omega)
  | succ fuel ih =>
    by_cases low : deg r < deg P
    · exact stop low
    have high : deg P ≤ deg r := not_lt.mp low
    have lower := deg_cancel_lt hP high
    have restRoom : deg (r ^^^ (P <<< (deg r - deg P).toNat)) < (fuel : Int) := by omega
    obtain ⟨rest, restSteps, restRecords⟩ := ih _ restRoom
    rw [reduceLoop_of_deg_le high, restRecords]
    exact ⟨_ :: rest, ⟨high, Int.toNat_of_nonneg (by omega), rfl, rfl, lower, restSteps⟩, rfl⟩

/-! ### The reducer (42_reducer.md R76, R77) -/

theorem FieldCfg.valid.deg_modulus {c : FieldCfg} (valid : c.valid) : deg c.modulus = (c.degree : Int) := by
  obtain ⟨-, -, degree⟩ := valid
  exact degree

theorem FieldCfg.valid.degree_le {c : FieldCfg} (valid : c.valid) : c.degree ≤ 8 := by
  obtain ⟨-, hi, -⟩ := valid
  exact hi

theorem reduce_of_deg_ne {c : FieldCfg} (other : deg c.modulus ≠ (c.degree : Int)) (on : Bool) (x : Nat) :
    reduce c on x = Run.raise .invalidModulus := if_pos other

/-- The reducer under a modulus of degree m: it makes the passes of the rule, and the mask cuts nothing of the last
value. -/
theorem reduce_follows_steps {c : FieldCfg} (degree : deg c.modulus = (c.degree : Int)) {x : Nat} (hx : x < 2 ^ 16) :
    ∃ steps r, ReduceSteps c.modulus x steps r ∧ r < 2 ^ c.degree ∧ ∀ on : Bool, reduce c on x =
      { records := if on then steps.map passRecord ++ [modRecord x r] else [], result := .value r } := by
  obtain ⟨steps, passes, records⟩ := reduceLoop_follows_steps (ne_zero_of_deg_eq degree) reducerFuel x
    ((deg_lt_iff x reducerFuel).mpr hx)
  rw [reduceLoop_value] at passes
  have small : polyModLoop c.modulus reducerFuel x < 2 ^ c.degree :=
    (deg_lt_iff _ _).mp (degree ▸ passes.deg_lt)
  refine ⟨steps, _, passes, small, fun on => ?_⟩
  rw [reduce_of_degree degree, FieldCfg.mask, maskBits_of_lt small]
  cases on
  · rw [reduceLoop_records_off]
    rfl
  · rw [records]
    rfl

/-- A reduction of 16 bits makes at most 16 - m passes. -/
theorem ReduceSteps.length_le_of_lt {P x m last : Nat} {steps : List (Nat × Nat × Nat)}
    (h : ReduceSteps P x steps last) (degree : deg P = (m : Int)) (hm : m ≤ 16) (hx : x < 2 ^ 16) :
    steps.length ≤ 16 - m := by
  have length := h.length_le
  have high : deg x < ((16 : Nat) : Int) := (deg_lt_iff x 16).mpr hx
  omega

/-- What is already a remainder is reduced to itself. -/
theorem reduce_of_lt {c : FieldCfg} (degree : deg c.modulus = (c.degree : Int)) {r : Nat} (small : r < 2 ^ c.degree)
    (on : Bool) : reduce c on r = { records := if on then [modRecord r r] else [], result := .value r } := by
  have low : deg r < deg c.modulus := degree ▸ (deg_lt_iff r _).mpr small
  rw [reduce_of_degree degree, ← reduceLoop_value on, reduceLoop_of_deg_lt low, FieldCfg.mask, maskBits_of_lt small]
  rfl

/-- Settles O34: the passes keep the congruence class, two remainders of one class are equal, and a remainder makes no
pass. -/
theorem reductionIsTheUniqueRemainder : Obligations.ReductionIsTheUniqueRemainder := by
  intro c x valid hx
  have degree := valid.deg_modulus
  obtain ⟨steps, r, passes, small, run⟩ := reduce_follows_steps degree hx
  have remainder := passes.congruent_last
  refine ⟨r, by rw [run], small, remainder, fun r' small' remainder' => ?_, by rw [reduce_of_lt degree small]⟩
  exact eq_of_congruent degree small' small (congruent_trans (congruent_symm remainder') remainder)

/-- Settles O33: the guard, and the passes that the loop makes. -/
theorem reducerFollowsItsLoop : Obligations.ReducerFollowsItsLoop := by
  refine ⟨fun c on x other => reduce_of_deg_ne other on x, fun c x valid hx => ?_⟩
  have degree := valid.deg_modulus
  have hi := valid.degree_le
  obtain ⟨steps, r, passes, small, run⟩ := reduce_follows_steps degree hx
  exact ⟨steps, r, passes, degree ▸ passes.length_le, passes.length_le_of_lt degree (by omega) hx, small,
    run true, run false⟩

theorem reduce_error_iff (c : FieldCfg) (on : Bool) (x : Nat) :
    (reduce c on x).result = .error .invalidModulus ↔ deg c.modulus ≠ (c.degree : Int) := by
  by_cases degree : deg c.modulus = (c.degree : Int)
  · rw [reduce_of_degree degree]
    simp [degree]
  · rw [reduce_of_deg_ne degree]
    simp [degree, Run.raise]

/-- A command whose datapath answers a value, with records that fit the trace, keeps them and writes the value to
RES. -/
theorem exec_of_toRes {i : Instr} {s : State} {run : Run Nat} {recs : List StepRecord} {v : Nat}
    (body : commandBody i (s.beginCommand i.traced) = run.toRes)
    (answer : run = { records := recs, result := .value v }) (room : recs.length ≤ Config.traceDepth) :
    exec i s = .next (resultDone s recs v) := by
  subst answer
  exact (exec_eq_frame i s).trans (frame_writes_res (body.trans (Run.toRes_mk recs (.value v))) room)

/-! ### RED (42_reducer.md R77, R78) -/

/-- Settles O35: the guard stands before the loop, and the multiplier's result is the reducer's. -/
theorem reducerGuardRaises : Obligations.ReducerGuardRaises := by
  refine ⟨fun t s other => exec_of_raise ?_, reduce_error_iff, fun c on a b other => ?_, fun c on x valid raised => ?_⟩
  · exact congrArg Run.toRes (reduce_of_deg_ne other t s.x.toNat)
  · exact (reduce_error_iff c on (rawProduct a b c.degree)).mpr other
  · exact (reduce_error_iff c on x).mp raised valid.deg_modulus

/-- Settles O36: RED answers what the reducer does, and at most 16 - m passes leave room for their records. -/
theorem redWritesTheRemainder : Obligations.RedWritesTheRemainder := by
  refine ⟨by decide, fun t s valid => ?_⟩
  have degree := valid.deg_modulus
  have hi := valid.degree_le
  obtain ⟨steps, r, passes, small, run⟩ := reduce_follows_steps degree s.x.isLt
  have passCount := passes.length_le_of_lt degree (by omega) s.x.isLt
  have recordCount : (steps.map passRecord ++ [modRecord s.x.toNat r]).length = steps.length + 1 := by simp
  refine ⟨steps.map passRecord ++ [modRecord s.x.toNat r], r, ⟨steps, passes, rfl⟩, by omega, by omega, small,
    exec_of_toRes rfl (run t) ?_⟩
  cases t
  · exact Nat.zero_le _
  · simp only [if_true, recordCount, Config.traceDepth]
    omega

end Sys2Proof.Machine
end

section
/-! The carry-less product is a commutative ring product (00_scope.md R9), and congruence respects sums and
products. -/

namespace Sys2Proof.Machine

/-! ### Ring laws of the carry-less product -/

/-- Folding the copies of `a` over the low bits of `b` multiplies these bits by `a`: each bit of `b` contributes the
same shifted copy of `a` on both sides. -/
theorem clmulBits_eq_clmul_mod (a b n : Nat) : clmulBits a b n = clmul (b % 2 ^ n) a := by
  induction n with
  | zero => rw [pow_zero, Nat.mod_one, clmul_zero_left, clmulBits]
  | succ n ih =>
    rw [clmulBits, ih, mod_two_pow_succ_eq_xor, clmul_xor_left]
    split
    · rw [clmul_shiftLeft_left, clmul_one_left]
    · rw [clmul_zero_left]

theorem clmul_comm (a b : Nat) : clmul a b = clmul b a := by
  rw [clmul, clmulBits_eq_clmul_mod, Nat.mod_eq_of_lt Nat.lt_log2_self]

/-- Bits of `b` above its size change nothing. -/
theorem clmulBits_of_lt {b n : Nat} (hb : b < 2 ^ n) (a : Nat) : clmulBits a b n = clmul a b := by
  rw [clmulBits_eq_clmul_mod, Nat.mod_eq_of_lt hb, clmul_comm]

theorem clmul_xor_right (a b b' : Nat) : clmul a (b ^^^ b') = clmul a b ^^^ clmul a b' := by
  rw [clmul_comm a, clmul_xor_left, clmul_comm b, clmul_comm b']

/-- The fold over the bits of `b` can multiply `a` by `d` before or after it. -/
theorem clmul_clmulBits (a b d n : Nat) : clmul (clmulBits a b n) d = clmulBits (clmul a d) b n := by
  induction n with
  | zero => exact clmul_zero_left d
  | succ n ih =>
    rw [clmulBits, clmulBits, clmul_xor_left, ih]
    split
    · rw [clmul_shiftLeft_left]
    · rw [clmul_zero_left]

theorem clmul_right_comm (a b d : Nat) : clmul (clmul a b) d = clmul (clmul a d) b :=
  clmul_clmulBits a b d _

theorem clmul_assoc (a b d : Nat) : clmul (clmul a b) d = clmul a (clmul b d) := by
  rw [clmul_comm a b, clmul_right_comm, clmul_comm]

theorem clmul_zero_right (a : Nat) : clmul a 0 = 0 := by
  rw [clmul_comm, clmul_zero_left]

theorem clmul_one_right (a : Nat) : clmul a 1 = a := by
  rw [clmul_comm, clmul_one_left]

/-- The product of two elements has degree at most 2m - 2 (43_multiplier.md R80). -/
theorem clmul_lt {a b m : Nat} (positive : 0 < m) (ha : a < 2 ^ m) (hb : b < 2 ^ m) :
    clmul a b < 2 ^ (2 * m - 1) := by
  obtain ⟨k, rfl⟩ := Nat.exists_eq_add_of_lt positive
  rw [← clmulBits_of_lt hb]
  exact Nat.lt_of_lt_of_eq (clmulBits_lt (by simpa using ha) b _) (congrArg (2 ^ ·) (by omega))

/-! ### Congruence respects the ring operations -/

theorem congruent_clmul_left {x y d : Nat} (h : congruent x y d) (z : Nat) :
    congruent (clmul x z) (clmul y z) d := by
  obtain ⟨q, difference⟩ := congruent_iff_xor.mp h
  refine congruent_iff_xor.mpr ⟨clmul q z, ?_⟩
  rw [← clmul_xor_left, difference, clmul_right_comm]

theorem congruent_clmul_right {x y d : Nat} (h : congruent x y d) (z : Nat) :
    congruent (clmul z x) (clmul z y) d := by
  rw [clmul_comm z, clmul_comm z]
  exact congruent_clmul_left h z

theorem congruent_xor {x y x' y' d : Nat} (h : congruent x y d) (h' : congruent x' y' d) :
    congruent (x ^^^ x') (y ^^^ y') d := by
  obtain ⟨q, rfl⟩ := h
  obtain ⟨q', rfl⟩ := h'
  refine ⟨q ^^^ q', ?_⟩
  rw [clmul_xor_left, Nat.xor_assoc, Nat.xor_assoc, Nat.xor_left_comm y']

end Sys2Proof.Machine
end

section
/-! The multiplier and MUL (43_multiplier.md R80 to R83): the multiplier reduces the carry-less product once, so its
value is the element congruent to it, and the laws of the ring follow from uniqueness. -/

namespace Sys2Proof.Machine

theorem FieldCfg.valid.le_degree {c : FieldCfg} (valid : c.valid) : 2 ≤ c.degree := by
  obtain ⟨lo, -, -⟩ := valid
  exact lo

/-! ### The datapath (43_multiplier.md R80) -/

theorem mulRecords_eq_mulTrace (a b m : Nat) : mulRecords a b m = mulTrace m a b := by
  induction m with
  | zero => rfl
  | succ m ih =>
    rw [mulTrace, List.range_succ, List.map_append, ← mulTrace, mulRecords, ih, rawProduct_eq_clmulBits,
      rawProduct_eq_clmulBits]
    rfl

@[simp] theorem mulTrace_length (m a b : Nat) : (mulTrace m a b).length = m := by simp [mulTrace]

/-- The product of two elements fits the reducer's input. -/
theorem FieldCfg.valid.clmul_lt_two_pow_16 {c : FieldCfg} (valid : c.valid) {a b : Nat} (ha : a < 2 ^ c.degree)
    (hb : b < 2 ^ c.degree) : clmul a b < 2 ^ 16 := by
  have lo := valid.le_degree
  have hi := valid.degree_le
  exact Nat.lt_of_lt_of_le (clmul_lt (by omega) ha hb) (Nat.pow_le_pow_right (by decide) (by omega))

theorem multiply_eq_reduce (c : FieldCfg) {a b : Nat} (hb : b < 2 ^ c.degree) (on : Bool) :
    multiply c on a b =
      { records := (if on then mulTrace c.degree a b else []) ++ (reduce c on (clmul a b)).records,
        result := (reduce c on (clmul a b)).result } := by
  rw [multiply, rawProduct_eq_clmulBits, clmulBits_of_lt hb, mulRecords_eq_mulTrace]

/-- The multiplier on elements: the Mul records, then the passes that lead from the carry-less product to the
product. -/
theorem multiply_follows_steps {c : FieldCfg} (valid : c.valid) {a b : Nat} (ha : a < 2 ^ c.degree)
    (hb : b < 2 ^ c.degree) :
    ∃ steps, ReduceSteps c.modulus (clmul a b) steps (product c a b) ∧ product c a b < 2 ^ c.degree ∧
      ∀ on : Bool, multiply c on a b =
        { records := if on then
            mulTrace c.degree a b ++ (steps.map passRecord ++ [modRecord (clmul a b) (product c a b)]) else [],
          result := .value (product c a b) } := by
  obtain ⟨steps, r, passes, small, run⟩ := reduce_follows_steps valid.deg_modulus (valid.clmul_lt_two_pow_16 ha hb)
  have value : product c a b = r := by rw [product, multiply_eq_reduce c hb, run]
  subst value
  refine ⟨steps, passes, small, fun on => ?_⟩
  rw [multiply_eq_reduce c hb, run]
  cases on <;> rfl

/-! ### The product is the ring's (43_multiplier.md R83) -/

theorem product_lt {c : FieldCfg} (valid : c.valid) {a b : Nat} (ha : a < 2 ^ c.degree) (hb : b < 2 ^ c.degree) :
    product c a b < 2 ^ c.degree := by
  obtain ⟨-, -, small, -⟩ := multiply_follows_steps valid ha hb
  exact small

theorem congruent_product {c : FieldCfg} (valid : c.valid) {a b : Nat} (ha : a < 2 ^ c.degree)
    (hb : b < 2 ^ c.degree) : congruent (clmul a b) (product c a b) c.modulus := by
  obtain ⟨steps, passes, -, -⟩ := multiply_follows_steps valid ha hb
  exact passes.congruent_last

/-- The product is the only element of its class. -/
theorem eq_product_of_congruent {c : FieldCfg} (valid : c.valid) {a b r : Nat} (ha : a < 2 ^ c.degree)
    (hb : b < 2 ^ c.degree) (hr : r < 2 ^ c.degree) (h : congruent (clmul a b) r c.modulus) : r = product c a b :=
  eq_of_congruent valid.deg_modulus hr (product_lt valid ha hb)
    (congruent_trans (congruent_symm h) (congruent_product valid ha hb))

theorem product_comm {c : FieldCfg} (valid : c.valid) {a b : Nat} (ha : a < 2 ^ c.degree) (hb : b < 2 ^ c.degree) :
    product c a b = product c b a :=
  eq_product_of_congruent valid hb ha (product_lt valid ha hb) (clmul_comm a b ▸ congruent_product valid ha hb)

/-- Both sides are the element congruent to the threefold product. -/
theorem product_assoc {c : FieldCfg} (valid : c.valid) {a b d : Nat} (ha : a < 2 ^ c.degree) (hb : b < 2 ^ c.degree)
    (hd : d < 2 ^ c.degree) : product c (product c a b) d = product c a (product c b d) := by
  have hab := product_lt valid ha hb
  have hbd := product_lt valid hb hd
  have left : congruent (clmul (clmul a b) d) (product c (product c a b) d) c.modulus :=
    congruent_trans (congruent_clmul_left (congruent_product valid ha hb) d) (congruent_product valid hab hd)
  have right : congruent (clmul a (clmul b d)) (clmul a (product c b d)) c.modulus :=
    congruent_clmul_right (congruent_product valid hb hd) a
  rw [← clmul_assoc] at right
  exact eq_product_of_congruent valid ha hbd (product_lt valid hab hd) (congruent_trans (congruent_symm right) left)

theorem product_fieldAdd {c : FieldCfg} (valid : c.valid) {a b d : Nat} (ha : a < 2 ^ c.degree)
    (hb : b < 2 ^ c.degree) (hd : d < 2 ^ c.degree) :
    product c a (fieldAdd c b d) = fieldAdd c (product c a b) (product c a d) := by
  have hab := product_lt valid ha hb
  have had := product_lt valid ha hd
  rw [fieldAdd_of_lt hb hd, fieldAdd_of_lt hab had]
  refine (eq_product_of_congruent valid ha (Nat.xor_lt_two_pow hb hd) (Nat.xor_lt_two_pow hab had) ?_).symm
  rw [clmul_xor_right]
  exact congruent_xor (congruent_product valid ha hb) (congruent_product valid ha hd)

theorem product_zero {c : FieldCfg} (valid : c.valid) {a : Nat} (ha : a < 2 ^ c.degree) : product c a 0 = 0 := by
  have zero := Nat.two_pow_pos c.degree
  refine (eq_product_of_congruent valid ha zero zero ?_).symm
  rw [clmul_zero_right]
  exact congruent_refl _ _

/-- 1 is an element under every valid configuration. -/
theorem FieldCfg.valid.one_lt {c : FieldCfg} (valid : c.valid) : 1 < 2 ^ c.degree :=
  Nat.one_lt_two_pow (Nat.ne_zero_of_lt valid.le_degree)

theorem product_one {c : FieldCfg} (valid : c.valid) {a : Nat} (ha : a < 2 ^ c.degree) : product c a 1 = a := by
  refine (eq_product_of_congruent valid ha valid.one_lt ha ?_).symm
  rw [clmul_one_right]
  exact congruent_refl _ _

/-- Settles O37: the reduction keeps the congruence class of the carry-less product, each class holds one element, and
the ring laws of the carry-less product pass to the classes. -/
theorem multiplicationIsTheRingProduct : Obligations.MultiplicationIsTheRingProduct := by
  intro c a b d valid ha hb hd
  exact ⟨product_lt valid ha hb, congruent_product valid ha hb,
    fun r hr h => eq_product_of_congruent valid ha hb hr h, product_comm valid ha hb,
    product_assoc valid ha hb hd, product_fieldAdd valid ha hb hd, product_zero valid ha, product_one valid ha⟩

/-! ### MUL (43_multiplier.md R82) -/

theorem maskedA_eq_elementA (s : State) : s.maskedA = elementA s := maskBits_eq_mod _ _

theorem maskedB_eq_elementB (s : State) : s.maskedB = elementB s := maskBits_eq_mod _ _

theorem elementA_lt (s : State) : elementA s < 2 ^ s.cfg.degree := Nat.mod_lt _ (Nat.two_pow_pos _)

theorem elementB_lt (s : State) : elementB s < 2 ^ s.cfg.degree := Nat.mod_lt _ (Nat.two_pow_pos _)

/-- The body of MUL multiplies the masked operands, with the command's trace setting. -/
theorem mulBody_eq (t : Bool) (s : State) :
    commandBody (.mul t) (s.beginCommand t) = (multiply s.cfg t (elementA s) (elementB s)).toRes := by
  rw [← maskedA_eq_elementA, ← maskedB_eq_elementB]
  rfl

/-- Settles O38: MUL answers what the multiplier does; a product of degree at most 2m - 2 needs at most m - 1 passes, so
the records fit the trace. -/
theorem mulWritesTheProduct : Obligations.MulWritesTheProduct := by
  refine ⟨by decide, fun t s valid => ?_⟩
  have degree := valid.deg_modulus
  have lo := valid.le_degree
  have hi := valid.degree_le
  obtain ⟨steps, passes, small, run⟩ := multiply_follows_steps valid (elementA_lt s) (elementB_lt s)
  have rawDegree : deg (clmul (elementA s) (elementB s)) < ((2 * s.cfg.degree - 1 : Nat) : Int) :=
    (deg_lt_iff _ _).mpr (clmul_lt (by omega) (elementA_lt s) (elementB_lt s))
  have passCount : steps.length + 1 ≤ s.cfg.degree := by
    have bound := passes.length_le
    omega
  refine ⟨steps.map passRecord ++ [modRecord _ _], product s.cfg (elementA s) (elementB s), ⟨steps, passes, rfl⟩,
    small, by omega, by simp, by simpa using passCount, exec_of_toRes (mulBody_eq t s) (run t) ?_⟩
  cases t
  · exact Nat.zero_le _
  · simp only [if_true, List.length_append, mulTrace_length, List.length_map, List.length_singleton, Config.traceDepth]
    omega

end Sys2Proof.Machine
end

section
/-! Polynomial division leaves a remainder of lower degree, and a factor below an irreducible modulus cancels in a
congruence (00_scope.md R10, 40_configuration.md R68). -/

namespace Sys2Proof.Machine

/-! ### Division with remainder -/

/-- The remainder is what a reduction by the divisor leaves. -/
theorem polyMod_follows_steps {d : Nat} (hd : d ≠ 0) (x : Nat) : ∃ steps, ReduceSteps d x steps (polyMod x d) := by
  have room : deg x < ((x.log2 + 1 : Nat) : Int) := (deg_lt_iff x _).mpr Nat.lt_log2_self
  obtain ⟨steps, passes, -⟩ := reduceLoop_follows_steps hd (x.log2 + 1) x room
  rw [reduceLoop_value] at passes
  exact ⟨steps, passes⟩

theorem congruent_polyMod {d : Nat} (hd : d ≠ 0) (x : Nat) : congruent x (polyMod x d) d := by
  obtain ⟨steps, passes⟩ := polyMod_follows_steps hd x
  exact passes.congruent_last

/-- A polynomial of lower degree than `d` has its top bit below that of `d`. -/
theorem polyMod_lt {d : Nat} (hd : d ≠ 0) (x : Nat) : polyMod x d < d := by
  obtain ⟨steps, passes⟩ := polyMod_follows_steps hd x
  have low := passes.deg_lt
  rw [deg_of_ne_zero hd, deg_lt_iff] at low
  exact Nat.lt_of_lt_of_le low (Nat.log2_self_le hd)

/-! ### Cancellation under an irreducible modulus -/

theorem irreducible_iff {p : Nat} :
    irreducible p = true ↔ 2 ≤ p ∧ ∀ d, 2 ≤ d → d < 2 ^ p.log2 → polyMod p d ≠ 0 := by
  simp only [irreducible, Bool.and_eq_true, decide_eq_true_eq, List.all_eq_true, List.mem_range, Bool.or_eq_true,
    bne_iff_ne]
  refine and_congr_right fun _ => forall_congr' fun d => ?_
  rw [or_iff_not_imp_left, not_lt]
  exact imp.swap

theorem congruent_clmul_modulus (x y d : Nat) : congruent (clmul d x) (clmul d y) d :=
  congruent_iff_xor.mpr ⟨x ^^^ y, by rw [← clmul_xor_right, clmul_comm]⟩

/-- Descent on the factor `a`: the remainder of the modulus by `a` is a smaller factor, not 0 since the modulus is
irreducible, and it keeps the congruence, being a sum of multiples of the modulus and of `a`. -/
theorem congruent_of_congruent_clmul {p : Nat} (irred : irreducible p = true) {a : Nat} (ha : a ≠ 0)
    (low : a < 2 ^ p.log2) {x y : Nat} (h : congruent (clmul a x) (clmul a y) p) : congruent x y p := by
  induction a using Nat.strong_induction_on with
  | _ a ih =>
    obtain ⟨-, noFactor⟩ := irreducible_iff.mp irred
    by_cases one : a = 1
    · simpa only [one, clmul_one_left] using h
    have smaller := polyMod_lt ha p
    obtain ⟨q, remainder⟩ := congruent_iff_xor.mp (congruent_symm (congruent_polyMod ha p))
    have expand (z : Nat) : clmul (polyMod p a) z = clmul p z ^^^ clmul q (clmul a z) := by
      rw [← clmul_assoc, ← remainder, ← clmul_xor_left, Nat.xor_comm p, Nat.xor_xor_cancel_right]
    refine ih _ smaller (noFactor a (by omega) low) (Nat.lt_trans smaller low) ?_
    rw [expand, expand]
    exact congruent_xor (congruent_clmul_modulus x y p) (congruent_clmul_right h q)

end Sys2Proof.Machine
end

section
/-! The exponentiator and POW (44_exponentiator.md R84 to R86): the loop keeps the running square and accumulator, one
iteration a bit of the exponent, and square and multiply is the repeated product. -/

namespace Sys2Proof.Machine

/-! ### The running values are powers of the base -/

theorem iteratedProduct_lt {c : FieldCfg} (valid : c.valid) {a : Nat} (ha : a < 2 ^ c.degree) (n : Nat) :
    iteratedProduct c a n < 2 ^ c.degree := by
  induction n with
  | zero => exact valid.one_lt
  | succ n ih => exact product_lt valid ih ha

theorem iteratedProduct_add {c : FieldCfg} (valid : c.valid) {a : Nat} (ha : a < 2 ^ c.degree) (n k : Nat) :
    iteratedProduct c a (n + k) = product c (iteratedProduct c a n) (iteratedProduct c a k) := by
  have element := iteratedProduct_lt valid ha
  induction k with
  | zero => exact (product_one valid (element n)).symm
  | succ k ih =>
    rw [← Nat.add_assoc, iteratedProduct, ih, product_assoc valid (element n) (element k) ha, iteratedProduct]

theorem one_product {c : FieldCfg} (valid : c.valid) {a : Nat} (ha : a < 2 ^ c.degree) : product c 1 a = a :=
  (product_comm valid valid.one_lt ha).trans (product_one valid ha)

theorem zero_product {c : FieldCfg} (valid : c.valid) {a : Nat} (ha : a < 2 ^ c.degree) : product c 0 a = 0 :=
  (product_comm valid (Nat.two_pow_pos _) ha).trans (product_zero valid ha)

theorem iteratedProduct_one {c : FieldCfg} (valid : c.valid) {a : Nat} (ha : a < 2 ^ c.degree) :
    iteratedProduct c a 1 = a := one_product valid ha

theorem iteratedProduct_zero_base {c : FieldCfg} (valid : c.valid) {n : Nat} (positive : n ≠ 0) :
    iteratedProduct c 0 n = 0 := by
  obtain ⟨k, rfl⟩ := Nat.exists_eq_succ_of_ne_zero positive
  exact product_zero valid (iteratedProduct_lt valid (Nat.two_pow_pos _) k)

/-- Each squaring doubles the exponent. -/
theorem runningSquare_eq_iteratedProduct {c : FieldCfg} (valid : c.valid) {base : Nat} (hb : base < 2 ^ c.degree)
    (k : Nat) : runningSquare c base k = iteratedProduct c base (2 ^ k) := by
  induction k with
  | zero => exact (iteratedProduct_one valid hb).symm
  | succ k ih => rw [runningSquare, ih, ← iteratedProduct_add valid hb, Nat.pow_succ, Nat.mul_two]

/-- After k iterations the accumulator is the power to the low k bits of the exponent. -/
theorem runningAcc_eq_iteratedProduct_mod {c : FieldCfg} (valid : c.valid) {base : Nat} (hb : base < 2 ^ c.degree)
    (e k : Nat) : runningAcc c base e k = iteratedProduct c base (e % 2 ^ k) := by
  induction k with
  | zero => rw [Nat.pow_zero, Nat.mod_one]; rfl
  | succ k ih =>
    rw [runningAcc, ih, Nat.mod_pow_succ, ← Nat.toNat_testBit]
    cases e.testBit k
    · rfl
    · rw [if_pos rfl, runningSquare_eq_iteratedProduct valid hb, ← iteratedProduct_add valid hb, Bool.toNat_true,
        Nat.mul_one]

theorem runningSquare_lt {c : FieldCfg} (valid : c.valid) {base : Nat} (hb : base < 2 ^ c.degree) (k : Nat) :
    runningSquare c base k < 2 ^ c.degree :=
  runningSquare_eq_iteratedProduct valid hb k ▸ iteratedProduct_lt valid hb _

theorem runningAcc_lt {c : FieldCfg} (valid : c.valid) {base : Nat} (hb : base < 2 ^ c.degree) (e k : Nat) :
    runningAcc c base e k < 2 ^ c.degree :=
  runningAcc_eq_iteratedProduct_mod valid hb e k ▸ iteratedProduct_lt valid hb _

/-! ### How many iterations an exponent takes (44_exponentiator.md R84) -/

theorem exponentBits_le_iff (e n : Nat) : exponentBits e ≤ n ↔ e < 2 ^ n := by
  have := neg_one_le_deg e
  rw [← deg_lt_iff, exponentBits]
  omega

/-- The exponent is used up exactly when its iterations are done. -/
theorem shiftRight_eq_zero_iff (e k : Nat) : e >>> k = 0 ↔ exponentBits e ≤ k := by
  rw [exponentBits_le_iff, Nat.shiftRight_eq_div_pow, Nat.div_eq_zero_iff_lt (Nat.two_pow_pos k)]

/-- Square and multiply computes the repeated product. -/
theorem runningAcc_exponentBits {c : FieldCfg} (valid : c.valid) {base : Nat} (hb : base < 2 ^ c.degree) (e : Nat) :
    runningAcc c base e (exponentBits e) = iteratedProduct c base e := by
  rw [runningAcc_eq_iteratedProduct_mod valid hb, Nat.mod_eq_of_lt ((exponentBits_le_iff e _).mp le_rfl)]

/-! ### The loop (44_exponentiator.md R84, R85) -/

/-- The records of the multiplication of an iteration, made where the exponent's bit is set. -/
def accumulateRecords (c : FieldCfg) (base e k : Nat) : List StepRecord :=
  if e.testBit k then (multiply c true (runningAcc c base e k) (runningSquare c base k)).records else []

/-- The records of one iteration: those of its multiplication and squaring when TRACE_NESTED, then its Exp record. -/
def powIteration (c : FieldCfg) (nested : Bool) (base e k : Nat) : List StepRecord :=
  (if nested then
    accumulateRecords c base e k ++ (multiply c true (runningSquare c base k) (runningSquare c base k)).records
   else [])
  ++ [expRecord (e.testBit k) (runningSquare c base k) (runningSquare c base (k + 1))
        (runningAcc c base e k) (runningAcc c base e (k + 1))]

theorem powTrace_eq_flatMap (c : FieldCfg) (nested : Bool) (base e : Nat) :
    powTrace c nested base e = (List.range' 0 (exponentBits e)).flatMap (powIteration c nested base e) := by
  rw [← List.range_eq_range']
  rfl

/-- The trace setting decides only whether the multiplier keeps its records. -/
theorem multiply_eq_product {c : FieldCfg} (valid : c.valid) {a b : Nat} (ha : a < 2 ^ c.degree) (hb : b < 2 ^ c.degree)
    (on : Bool) : multiply c on a b =
      { records := if on then (multiply c true a b).records else [], result := .value (product c a b) } := by
  obtain ⟨steps, -, -, run⟩ := multiply_follows_steps valid ha hb
  rw [run on, run true]
  rfl

theorem powerLoop_zero_exponent (c : FieldCfg) (nested on : Bool) (fuel b acc : Nat) :
    powerLoop c nested on fuel 0 b acc = Run.pure acc := by
  cases fuel <;> rfl

/-- The multiplication of iteration k, if there is one, gives the next accumulator. -/
theorem accumulate_eq {c : FieldCfg} (valid : c.valid) (on : Bool) {base : Nat} (hb : base < 2 ^ c.degree) (e k : Nat) :
    (if e.testBit k then multiply c on (runningAcc c base e k) (runningSquare c base k)
      else Run.pure (runningAcc c base e k)) =
    { records := if on then accumulateRecords c base e k else [],
      result := .value (runningAcc c base e (k + 1)) } := by
  rw [runningAcc, accumulateRecords]
  split
  · exact multiply_eq_product valid (runningAcc_lt valid hb e k) (runningSquare_lt valid hb k) on
  · rw [ite_self]
    rfl

/-- Iteration k of the loop. -/
theorem powerLoop_iteration {c : FieldCfg} (valid : c.valid) (nested on : Bool) {base : Nat}
    (hb : base < 2 ^ c.degree) (fuel : Nat) {e k : Nat} (more : e >>> k ≠ 0) :
    powerLoop c nested on (fuel + 1) (e >>> k) (runningSquare c base k) (runningAcc c base e k) =
      Run.bind { records := if on then powIteration c nested base e k else [], result := .value () } fun _ =>
        powerLoop c nested on fuel (e >>> (k + 1)) (runningSquare c base (k + 1)) (runningAcc c base e (k + 1)) := by
  have square := runningSquare_lt valid hb k
  have bit : (e >>> k).testBit 0 = e.testBit k := by rw [Nat.testBit_shiftRight, Nat.add_zero]
  rw [powerLoop, if_neg more, bit, ← Nat.shiftRight_add]
  dsimp only
  rw [accumulate_eq valid _ hb, multiply_eq_product valid square square, ← runningSquare]
  cases on
  · rfl
  · cases nested <;> simp [powIteration]

/-- With fuel for the n bits of the exponent that are left the loop makes their iterations. -/
theorem powerLoop_follows_iterations {c : FieldCfg} (valid : c.valid) (nested on : Bool) {base : Nat}
    (hb : base < 2 ^ c.degree) (e n : Nat) {k fuel : Nat} (bits : exponentBits e = k + n) (room : n ≤ fuel) :
    powerLoop c nested on fuel (e >>> k) (runningSquare c base k) (runningAcc c base e k) =
      { records := if on then (List.range' k n).flatMap (powIteration c nested base e) else [],
        result := .value (runningAcc c base e (exponentBits e)) } := by
  induction n generalizing k fuel with
  | zero =>
    rw [(shiftRight_eq_zero_iff e k).mpr (Nat.le_of_eq bits), powerLoop_zero_exponent, bits]
    cases on <;> rfl
  | succ n ih =>
    obtain ⟨fuel, rfl⟩ := Nat.exists_eq_add_of_lt room
    have more : e >>> k ≠ 0 := by
      rw [ne_eq, shiftRight_eq_zero_iff]
      omega
    rw [powerLoop_iteration valid nested on hb _ more, ih (by omega) (by omega)]
    cases on <;> simp [List.range'_succ]

/-- The exponentiator: its iterations in order, and the repeated product. -/
theorem power_follows_iterations {c : FieldCfg} (valid : c.valid) (nested on : Bool) {base e : Nat}
    (hb : base < 2 ^ c.degree) (he : e < 2 ^ 32) : power c nested on base e =
      { records := if on then powTrace c nested base e else [],
        result := .value (runningAcc c base e (exponentBits e)) } := by
  rw [powTrace_eq_flatMap]
  exact powerLoop_follows_iterations valid nested on hb e (exponentBits e) (Nat.zero_add _).symm
    ((exponentBits_le_iff e 32).mpr he)

theorem power_result {c : FieldCfg} (valid : c.valid) (nested on : Bool) {base e : Nat}
    (hb : base < 2 ^ c.degree) (he : e < 2 ^ 32) :
    (power c nested on base e).result = .value (iteratedProduct c base e) := by
  rw [power_follows_iterations valid nested on hb he, runningAcc_exponentBits valid hb]

/-- Settles O39: the loop's variables are the running values, and it stops when the exponent is used up. -/
theorem exponentiatorFollowsItsLoop : Obligations.ExponentiatorFollowsItsLoop := by
  intro c nested base e valid hb he
  exact ⟨power_follows_iterations valid nested true hb he, power_follows_iterations valid nested false hb he,
    (exponentBits_le_iff e 32).mpr he⟩

/-! ### POW (44_exponentiator.md R86) -/

/-- A multiplication makes at most 2m records: m Mul records, and at most m - 1 passes and their Mod record. -/
theorem multiply_records_length_le {c : FieldCfg} (valid : c.valid) {a b : Nat} (ha : a < 2 ^ c.degree)
    (hb : b < 2 ^ c.degree) (on : Bool) : (multiply c on a b).records.length ≤ 2 * c.degree := by
  obtain ⟨steps, passes, -, run⟩ := multiply_follows_steps valid ha hb
  have degree := valid.deg_modulus
  have lo := valid.le_degree
  have rawDegree : deg (clmul a b) < ((2 * c.degree - 1 : Nat) : Int) :=
    (deg_lt_iff _ _).mpr (clmul_lt (by omega) ha hb)
  have passCount := passes.length_le
  rw [run on]
  cases on
  · exact Nat.zero_le _
  · simp only [if_true, List.length_append, mulTrace_length, List.length_map, List.length_singleton]
    omega

theorem powIteration_length_le {c : FieldCfg} (valid : c.valid) (nested : Bool) {base : Nat}
    (hb : base < 2 ^ c.degree) (e k : Nat) :
    (powIteration c nested base e k).length ≤ if nested then 1 + 2 * c.degree + 2 * c.degree else 1 := by
  have square := runningSquare_lt valid hb k
  have squaring := multiply_records_length_le valid square square true
  cases nested
  · exact le_rfl
  · have accumulation : (accumulateRecords c base e k).length ≤ 2 * c.degree := by
      rw [accumulateRecords]
      split
      · exact multiply_records_length_le valid (runningAcc_lt valid hb e k) square true
      · exact Nat.zero_le _
    simp only [powIteration, if_true, List.length_append, List.length_singleton]
    omega

/-- At most 32 iterations, each within its bound (47_step_recorder.md R100). -/
theorem powTrace_length_le {c : FieldCfg} (valid : c.valid) (nested : Bool) {base e : Nat}
    (hb : base < 2 ^ c.degree) (he : e < 2 ^ 32) :
    (powTrace c nested base e).length ≤ 32 * if nested then 1 + 2 * c.degree + 2 * c.degree else 1 := by
  have perIteration := List.sum_le_card_nsmul
    ((List.range' 0 (exponentBits e)).map fun k => (powIteration c nested base e k).length) _ fun n mem => by
      obtain ⟨k, -, rfl⟩ := List.mem_map.mp mem
      exact powIteration_length_le valid nested hb e k
  rw [List.length_map, List.length_range', smul_eq_mul, ← List.length_flatMap, ← powTrace_eq_flatMap] at perIteration
  exact perIteration.trans (Nat.mul_le_mul_right _ ((exponentBits_le_iff e 32).mpr he))

/-- The body of POW runs the exponentiator on mask(A) and E, with the command's trace setting. -/
theorem powBody_eq (t : Bool) (s : State) :
    commandBody (.pow t) (s.beginCommand t) = (power s.cfg Config.traceNested t (elementA s) s.e.toNat).toRes := by
  rw [← maskedA_eq_elementA]
  rfl

/-- Settles O42: POW answers what the exponentiator does, whose records fit the trace; the corner cases are those of
the repeated product. -/
theorem powWritesThePower : Obligations.PowWritesThePower := by
  refine ⟨by decide, fun t s valid => ?_⟩
  have element := elementA_lt s
  have exponent : s.e.toNat < 2 ^ 32 := s.e.isLt
  have room : (if t then powTrace s.cfg Config.traceNested (elementA s) s.e.toNat else []).length
      ≤ Config.traceDepth := by
    have fits := powTrace_length_le valid Config.traceNested element exponent
    have hi := valid.degree_le
    cases t
    · exact Nat.zero_le _
    · refine fits.trans ?_
      rw [Config.traceDepth]
      split <;> omega
  refine ⟨exec_of_toRes (powBody_eq t s) (power_follows_iterations valid _ t element exponent) room, ?_⟩
  rw [runningAcc_exponentBits valid element]
  refine ⟨fun zero => ?_, fun one => ?_, fun positive masked => ?_⟩
  · rw [zero]
    rfl
  · rw [one]
    exact iteratedProduct_one valid element
  · rw [masked]
    exact iteratedProduct_zero_base valid fun zero => positive (BitVec.eq_of_toNat_eq zero)

end Sys2Proof.Machine
end

section
/-! The group order law (44_exponentiator.md R87): under an irreducible modulus the elements are a finite monoid with
zero in which every nonzero factor cancels, so the nonzero elements are a group of order 2^m - 1. -/

namespace Sys2Proof.Machine

/-! ### The elements as a monoid with zero -/

/-- The elements of the configured field, m bits wide. -/
abbrev Element (c : FieldCfg) : Type := { x : Nat // x < 2 ^ c.degree }

/-- The multiplier's product on the elements. -/
abbrev elementMonoid {c : FieldCfg} (valid : c.valid) : MonoidWithZero (Element c) where
  mul x y := ⟨product c x.val y.val, product_lt valid x.property y.property⟩
  one := ⟨1, valid.one_lt⟩
  zero := ⟨0, Nat.two_pow_pos _⟩
  mul_assoc x y z := Subtype.ext (product_assoc valid x.property y.property z.property)
  one_mul x := Subtype.ext (one_product valid x.property)
  mul_one x := Subtype.ext (product_one valid x.property)
  zero_mul x := Subtype.ext (zero_product valid x.property)
  mul_zero x := Subtype.ext (product_zero valid x.property)

/-- Its powers are the repeated products. -/
theorem elementMonoid_npow_val {c : FieldCfg} (valid : c.valid) (x : Element c) (n : Nat) :
    ((elementMonoid valid).npow n x).val = iteratedProduct c x.val n := by
  induction n with
  | zero => rfl
  | succ n ih =>
    rw [iteratedProduct, ← ih]
    rfl

/-- A nonzero factor cancels: the two products are congruent to the carry-less ones, where it cancels. -/
theorem product_left_cancel {c : FieldCfg} (valid : c.valid) (irred : irreducible c.modulus = true) {a x y : Nat}
    (ha : a < 2 ^ c.degree) (nonzero : a ≠ 0) (hx : x < 2 ^ c.degree) (hy : y < 2 ^ c.degree)
    (same : product c a x = product c a y) : x = y := by
  have degree := valid.deg_modulus
  have products : congruent (clmul a x) (clmul a y) c.modulus :=
    congruent_trans (congruent_product valid ha hx) (same ▸ congruent_symm (congruent_product valid ha hy))
  have low : a < 2 ^ c.modulus.log2 := (log2_of_deg_eq degree).symm ▸ ha
  exact eq_of_congruent degree hx hy (congruent_of_congruent_clmul irred nonzero low products)

/-- The group order law: a finite monoid with zero in which nonzero factors cancel is a group with zero, here with
2^m - 1 nonzero elements. -/
theorem iteratedProduct_group_order {c : FieldCfg} (valid : c.valid) (irred : irreducible c.modulus = true) {a : Nat}
    (ha : a < 2 ^ c.degree) (nonzero : a ≠ 0) : iteratedProduct c a (2 ^ c.degree - 1) = 1 := by
  let : Fintype (Element c) := Fintype.ofEquiv _ Fin.equivSubtype
  let := elementMonoid valid
  have : Nontrivial (Element c) := ⟨0, 1, fun same => Nat.zero_ne_one (congrArg Subtype.val same)⟩
  have : IsLeftCancelMulZero (Element c) := ⟨fun {x} hx y z same => Subtype.ext <|
    product_left_cancel valid irred x.property (fun zero => hx (Subtype.ext zero)) y.property z.property
      (congrArg Subtype.val same)⟩
  let := Fintype.groupWithZeroOfCancel (Element c)
  have card : Fintype.card (Element c) = 2 ^ c.degree := (Fintype.ofEquiv_card _).trans (Fintype.card_fin _)
  have order := FiniteField.pow_card_sub_one_eq_one (K := Element c) ⟨a, ha⟩ fun zero =>
    nonzero (congrArg Subtype.val zero)
  rw [card] at order
  exact (elementMonoid_npow_val valid ⟨a, ha⟩ _).symm.trans (congrArg Subtype.val order)

/-- Settles O41: the exponentiator computes the repeated product, the group order law gives its value for 2^m - 1, and
exponents add. -/
theorem groupOrderLaw : Obligations.GroupOrderLaw := by
  intro c a valid ha
  refine ⟨rfl, power_result valid false false ha (by decide), fun irred nonzero => ?_⟩
  have order := iteratedProduct_group_order valid irred ha nonzero
  refine ⟨?_, order, fun e => ?_⟩
  · have fits : 2 ^ c.degree ≤ 2 ^ 8 := Nat.pow_le_pow_right (by decide) valid.degree_le
    rw [power_result valid false false ha (by omega), order]
  · rw [iteratedProduct_add valid ha, order, product_one valid (iteratedProduct_lt valid ha e)]

end Sys2Proof.Machine
end

section
/-! Common factors of polynomials: a factor is a polynomial modulo which the other is congruent to 0, and coprimality
is that no factor of degree 1 or more is common (00_scope.md R10, 45_inverter.md R92). -/

namespace Sys2Proof.Machine

/-! ### Factors -/

theorem one_le_deg_iff {p : Nat} : 1 ≤ deg p ↔ 2 ≤ p := by
  have := deg_lt_iff p 1
  omega

theorem congruent_shiftLeft {x y d : Nat} (h : congruent x y d) (k : Nat) : congruent (x <<< k) (y <<< k) d := by
  obtain ⟨q, difference⟩ := congruent_iff_xor.mp h
  exact congruent_iff_xor.mpr ⟨q <<< k, by rw [← Nat.shiftLeft_xor_distrib, difference, clmul_shiftLeft_left]⟩

/-- A congruence holds modulo every factor of its modulus. -/
theorem congruent_of_factor {x y p d : Nat} (h : congruent x y p) (factor : congruent p 0 d) : congruent x y d := by
  obtain ⟨q, difference⟩ := congruent_iff_xor.mp h
  have multiple := congruent_clmul_right factor q
  rw [clmul_zero_right, ← difference] at multiple
  simpa only [Nat.xor_xor_cancel_right, Nat.zero_xor] using congruent_xor multiple (congruent_refl y d)

theorem congruent_modulus (p : Nat) : congruent p 0 p :=
  congruent_iff_xor.mpr ⟨1, by rw [clmul_one_left, Nat.xor_zero]⟩

theorem deg_le_of_factor {x d : Nat} (hx : x ≠ 0) (factor : congruent x 0 d) : deg d ≤ deg x := by
  obtain ⟨q, multiple⟩ := congruent_iff_xor.mp factor
  rw [Nat.xor_zero] at multiple
  have hq : q ≠ 0 := by
    rintro rfl
    exact hx (multiple.trans (clmul_zero_left d))
  have hd : d ≠ 0 := by
    rintro rfl
    exact hx (multiple.trans (clmul_zero_right q))
  rw [multiple, deg_clmul hq hd, deg_of_ne_zero hq]
  omega

/-- The remainder is 0 exactly where the divisor is a factor. -/
theorem polyMod_eq_zero_iff {d : Nat} (hd : d ≠ 0) (x : Nat) : polyMod x d = 0 ↔ congruent x 0 d := by
  have remainder := congruent_polyMod hd x
  refine ⟨fun zero => zero ▸ remainder, fun factor => ?_⟩
  obtain ⟨steps, passes⟩ := polyMod_follows_steps hd x
  have small : polyMod x d < 2 ^ d.log2 := (deg_lt_iff _ _).mp (deg_of_ne_zero hd ▸ passes.deg_lt)
  exact eq_of_congruent (deg_of_ne_zero hd) small (Nat.two_pow_pos _)
    (congruent_trans (congruent_symm remainder) factor)

/-! ### Coprimality -/

/-- The search that defines `coprime` misses no common factor, since no factor of `p` has a higher degree than `p`. -/
theorem coprime_iff {a p : Nat} (hp : p ≠ 0) :
    coprime a p = true ↔ ∀ d, 2 ≤ d → congruent a 0 d → ¬ congruent p 0 d := by
  simp only [coprime, List.all_eq_true, List.mem_range, Bool.or_eq_true, decide_eq_true_eq, bne_iff_ne]
  refine forall_congr' fun d => ⟨fun h two factor_a factor_p => ?_, fun h _ => ?_⟩
  · have hd : d ≠ 0 := by omega
    have inRange : d < 2 ^ (p.log2 + 1) := by
      rw [← deg_lt_iff]
      exact Int.lt_of_le_of_lt (deg_le_of_factor hp factor_p) ((deg_lt_iff p _).mpr Nat.lt_log2_self)
    rw [← polyMod_eq_zero_iff hd] at factor_a factor_p
    rcases h inRange with (small | a_ne) | p_ne
    · omega
    · exact a_ne factor_a
    · exact p_ne factor_p
  · by_cases two : 2 ≤ d
    · have hd : d ≠ 0 := by omega
      have noCommon := h two
      rw [← polyMod_eq_zero_iff hd, ← polyMod_eq_zero_iff hd] at noCommon
      tauto
    · exact .inl (.inl (not_le.mp two))

/-- Every polynomial is a factor of 0, so the modulus is common to 0 and itself. -/
theorem coprime_zero {p : Nat} (two : 2 ≤ p) : coprime 0 p = false := by
  rw [← Bool.not_eq_true, coprime_iff (Nat.ne_zero_of_lt two)]
  exact fun h => h p two (congruent_refl 0 p) (congruent_modulus p)

/-- What has an inverse modulo `p` is coprime to it: a common factor would be a factor of 1. -/
theorem coprime_of_inverse {a p y : Nat} (hp : p ≠ 0) (inverse : congruent (clmul y a) 1 p) : coprime a p = true := by
  refine (coprime_iff hp).mpr fun d two factor_a factor_p => ?_
  have multiple := congruent_clmul_right factor_a y
  rw [clmul_zero_right] at multiple
  have factor_one : congruent 1 0 d :=
    congruent_trans (congruent_symm (congruent_of_factor inverse factor_p)) multiple
  have low := deg_le_of_factor Nat.one_ne_zero factor_one
  have high := one_le_deg_iff.mpr two
  rw [show deg 1 = 0 from rfl] at low
  omega

/-- Under an irreducible modulus every nonzero element is coprime to it (45_inverter.md R92): a factor of the element
has a degree below that of the modulus. -/
theorem coprime_of_irreducible {a p : Nat} (irred : irreducible p = true) (ha : a ≠ 0) (low : deg a < deg p) :
    coprime a p = true := by
  obtain ⟨two, noFactor⟩ := irreducible_iff.mp irred
  have hp : p ≠ 0 := by omega
  refine (coprime_iff hp).mpr fun d two_d factor_a factor_p => ?_
  have degree := deg_le_of_factor ha factor_a
  have below : d < 2 ^ p.log2 := by
    rw [← deg_lt_iff, ← deg_of_ne_zero hp]
    omega
  exact noFactor d two_d below ((polyMod_eq_zero_iff (by omega) p).mpr factor_p)

end Sys2Proof.Machine
end

section
/-! The inverter and INV (45_inverter.md R89 to R92): the loop makes the iterations of the rule, each lowers
deg(u) + deg(v) and keeps the bounds, the cofactors and the common factors; so the loop ends with the ring inverse or
with a common factor. -/

namespace Sys2Proof.Machine

/-! ### One iteration (45_inverter.md R89) -/

/-- The loop variables after an iteration. -/
def Euclid.next (x : Euclid) : Euclid := x.ordered.update

/-- deg(u) + deg(v), which the swap does not change (45_inverter.md R90). -/
def Euclid.degSum (x : Euclid) : Int := deg x.u + deg x.v

/-- The two cases of the swap. -/
theorem Euclid.ordered_cases (x : Euclid) :
    (deg x.u < deg x.v ∧ x.ordered = { u := x.v, v := x.u, g1 := x.g2, g2 := x.g1 }) ∨
    (deg x.v ≤ deg x.u ∧ x.ordered = x) := by
  by_cases low : deg x.u < deg x.v
  · exact .inl ⟨low, if_pos low⟩
  · exact .inr ⟨not_lt.mp low, if_neg low⟩

theorem Euclid.ordered_deg_le (x : Euclid) : deg x.ordered.v ≤ deg x.ordered.u := by
  obtain ⟨low, swap⟩ | ⟨high, keep⟩ := x.ordered_cases
  · rw [swap]
    exact Int.le_of_lt low
  · rwa [keep]

theorem Euclid.ordered_degSum (x : Euclid) : x.ordered.degSum = x.degSum := by
  obtain ⟨-, swap⟩ | ⟨-, keep⟩ := x.ordered_cases
  · rw [swap]
    exact Int.add_comm _ _
  · rw [keep]

theorem Euclid.ordered_v_ne_zero {x : Euclid} (hu : x.u ≠ 0) (hv : x.v ≠ 0) : x.ordered.v ≠ 0 := by
  obtain ⟨-, swap⟩ | ⟨-, keep⟩ := x.ordered_cases
  · rwa [swap]
  · rwa [keep]

/-- The shift of an ordered pair is the difference of the degrees. -/
theorem Euclid.ordered_shift (x : Euclid) : (x.ordered.shift : Int) = deg x.ordered.u - deg x.ordered.v := by
  have := x.ordered_deg_le
  rw [Euclid.shift]
  omega

/-- An iteration cancels the leading term of u, so it lowers deg(u) + deg(v) (45_inverter.md R90). -/
theorem Euclid.next_degSum_lt {x : Euclid} (hu : x.u ≠ 0) (hv : x.v ≠ 0) : x.next.degSum < x.degSum := by
  rw [← x.ordered_degSum]
  exact Int.add_lt_add_right (deg_cancel_lt (x.ordered_v_ne_zero hu hv) x.ordered_deg_le) _

/-! ### The iterations from given loop variables -/

/-- The iterations of the rule from the loop variables `x`. -/
abbrev Euclid.Steps (x : Euclid) (recs : List StepRecord) (uEnd gEnd : Nat) : Prop :=
  EuclidSteps x.u x.v x.g1 x.g2 recs uEnd gEnd

/-- The rule fixes the swap, the shift and the record of an iteration: they are those of the datapath. -/
theorem Euclid.steps_cons_iff {x : Euclid} {rec : StepRecord} {rest : List StepRecord} {uEnd gEnd : Nat} :
    x.Steps (rec :: rest) uEnd gEnd ↔
      x.u ≠ 1 ∧ x.u ≠ 0 ∧ rec = x.ordered.record ∧ x.next.Steps rest uEnd gEnd := by
  refine and_congr_right fun _ => and_congr_right fun _ => ⟨?_, fun ⟨record, restSteps⟩ => ?_⟩
  · rintro ⟨uB, vB, g1B, g2B, k, swap, keep, shift, rfl, restSteps⟩
    have same : x.ordered = { u := uB, v := vB, g1 := g1B, g2 := g2B } := by
      obtain ⟨low, swapped⟩ | ⟨high, kept⟩ := x.ordered_cases
      · obtain ⟨rfl, rfl, rfl, rfl⟩ := swap low
        exact swapped
      · obtain ⟨rfl, rfl, rfl, rfl⟩ := keep high
        exact kept
    have shiftEq := x.ordered_shift
    rw [same] at shiftEq
    obtain rfl : k = Euclid.shift { u := uB, v := vB, g1 := g1B, g2 := g2B } :=
      Int.ofNat_inj.mp (shift.trans shiftEq.symm)
    rw [Euclid.next, same]
    exact ⟨rfl, restSteps⟩
  · refine ⟨x.ordered.u, x.ordered.v, x.ordered.g1, x.ordered.g2, x.ordered.shift, fun low => ?_, fun high => ?_,
      x.ordered_shift, record, restSteps⟩
    · rw [Euclid.ordered, if_pos low]
      exact ⟨rfl, rfl, rfl, rfl⟩
    · rw [Euclid.ordered, if_neg (not_lt.mpr high)]
      exact ⟨rfl, rfl, rfl, rfl⟩

section
variable {I : Euclid → Prop} (keeps : ∀ x : Euclid, x.u ≠ 1 → x.u ≠ 0 → I x → I x.next)
include keeps

/-- What every iteration keeps holds of the last loop variables. -/
theorem Euclid.Steps.last_of_invariant {x : Euclid} {recs : List StepRecord} {uEnd gEnd : Nat}
    (h : x.Steps recs uEnd gEnd) (start : I x) :
    ∃ y : Euclid, I y ∧ (y.u = 1 ∨ y.u = 0) ∧ uEnd = y.u ∧ gEnd = y.g1 := by
  induction recs generalizing x with
  | nil => exact ⟨x, start, h⟩
  | cons rec rest ih =>
    obtain ⟨ne_one, ne_zero, -, restSteps⟩ := Euclid.steps_cons_iff.mp h
    exact ih restSteps (keeps x ne_one ne_zero start)

/-- What every iteration keeps holds where a record is made. -/
theorem Euclid.Steps.record_of_invariant {x : Euclid} {recs : List StepRecord} {uEnd gEnd : Nat}
    (h : x.Steps recs uEnd gEnd) (start : I x) {rec : StepRecord} (mem : rec ∈ recs) :
    ∃ y : Euclid, I y ∧ y.u ≠ 1 ∧ y.u ≠ 0 ∧ rec = y.ordered.record := by
  induction recs generalizing x with
  | nil => cases mem
  | cons first rest ih =>
    obtain ⟨ne_one, ne_zero, record, restSteps⟩ := Euclid.steps_cons_iff.mp h
    rcases List.mem_cons.mp mem with rfl | later
    · exact ⟨x, start, ne_one, ne_zero, record⟩
    · exact ih restSteps (keeps x ne_one ne_zero start) later

end

/-! ### The bounds that every iteration keeps (45_inverter.md R90) -/

/-- The bounds at the top of an iteration. -/
structure Euclid.Bounded (m : Nat) (x : Euclid) : Prop where
  u_lt : deg x.u < m
  v_le : deg x.v ≤ m
  v_pos : 1 ≤ deg x.v
  g1_le : deg x.g1 + deg x.v ≤ m
  g2_le : deg x.g2 + deg x.u ≤ m

/-- The bounds after the swap. -/
structure Euclid.OrderedBounded (m : Nat) (x : Euclid) : Prop where
  u_le : deg x.u ≤ m
  v_lt : deg x.v < m
  v_pos : 1 ≤ deg x.v
  shift_eq : (x.shift : Int) = deg x.u - deg x.v
  g1_le : deg x.g1 + deg x.v ≤ m
  g2_le : deg x.g2 + deg x.u ≤ m

theorem Euclid.Bounded.v_ne_zero {m : Nat} {x : Euclid} (h : x.Bounded m) : x.v ≠ 0 := by
  have two := one_le_deg_iff.mp h.v_pos
  exact Nat.ne_zero_of_lt two

theorem Euclid.Bounded.ordered {m : Nat} {x : Euclid} (h : x.Bounded m) (ne_one : x.u ≠ 1) (ne_zero : x.u ≠ 0) :
    x.ordered.OrderedBounded m := by
  have shift_eq := x.ordered_shift
  have u_pos : 1 ≤ deg x.u := one_le_deg_iff.mpr (by omega)
  obtain ⟨u_lt, v_le, v_pos, g1_le, g2_le⟩ := h
  obtain ⟨-, swap⟩ | ⟨high, keep⟩ := x.ordered_cases
  · rw [swap] at shift_eq ⊢
    exact ⟨v_le, u_lt, u_pos, shift_eq, g2_le, g1_le⟩
  · rw [keep] at shift_eq ⊢
    exact ⟨Int.le_of_lt u_lt, Int.lt_of_le_of_lt high u_lt, v_pos, shift_eq, g1_le, g2_le⟩

theorem deg_xor_shiftLeft_lt {x y k n : Nat} (hx : deg x < (n : Int)) (hy : deg y + k < (n : Int)) :
    deg (x ^^^ (y <<< k)) < (n : Int) := by
  have := neg_one_le_deg y
  obtain ⟨j, rfl⟩ : ∃ j, n = j + k := ⟨n - k, by omega⟩
  have small : y < 2 ^ j := (deg_lt_iff y j).mp (by omega)
  rw [deg_lt_iff] at hx ⊢
  exact Nat.xor_lt_two_pow hx (Nat.shiftLeft_lt small)

/-- The update cancels the leading term of u, and the shift brings deg(g2) no further above than deg(u) is above
deg(v). -/
theorem Euclid.OrderedBounded.update {m : Nat} {x : Euclid} (h : x.OrderedBounded m) : x.update.Bounded m := by
  obtain ⟨u_le, v_lt, v_pos, shift_eq, g1_le, g2_le⟩ := h
  have hv : x.v ≠ 0 := Nat.ne_zero_of_lt (one_le_deg_iff.mp v_pos)
  have lower : deg x.update.u < deg x.u := deg_cancel_lt hv (by omega)
  have cofactor : deg x.update.g1 < ((m + 1 - x.v.log2 : Nat) : Int) := by
    rw [deg_of_ne_zero hv] at *
    exact deg_xor_shiftLeft_lt (by omega) (by omega)
  refine ⟨by omega, Int.le_of_lt v_lt, v_pos, ?_, Int.le_trans (Int.add_le_add_left (Int.le_of_lt lower) _) g2_le⟩
  change deg x.update.g1 + deg x.v ≤ m
  rw [deg_of_ne_zero hv] at *
  omega

theorem Euclid.Bounded.next {m : Nat} {x : Euclid} (ne_one : x.u ≠ 1) (ne_zero : x.u ≠ 0) (h : x.Bounded m) :
    x.next.Bounded m := (h.ordered ne_one ne_zero).update

/-- An Egcd record under a modulus of degree m, every value within its bound (45_inverter.md R90). -/
def EgcdRecordFits (m : Nat) (rec : StepRecord) : Prop :=
  ∃ u v q r t0 t1, rec = .egcd u v q r t0 t1 ∧
    u.toNat < 2 ^ (m + 1) ∧ v.toNat < 2 ^ m ∧ q.toNat ≤ 2 ^ (m - 1) ∧
    r.toNat < 2 ^ m ∧ t0.toNat < 2 ^ m ∧ t1.toNat < 2 ^ m

/-- Cutting a value to its field keeps its bound. -/
theorem Euclid.OrderedBounded.record_fits {m : Nat} {x : Euclid} (h : x.OrderedBounded m) :
    EgcdRecordFits m x.record := by
  have cut (n : Nat) : (BitVec.ofNat 10 n).toNat ≤ n := Nat.mod_le _ _
  have fits {n k : Nat} (low : deg n < (k : Int)) : (BitVec.ofNat 10 n).toNat < 2 ^ k :=
    Nat.lt_of_le_of_lt (cut n) ((deg_lt_iff n k).mp low)
  have rest := h.update.u_lt
  obtain ⟨u_le, v_lt, v_pos, shift_eq, g1_le, g2_le⟩ := h
  have shift_le : 1 <<< x.shift ≤ 2 ^ (m - 1) := by
    rw [Nat.one_shiftLeft]
    exact Nat.pow_le_pow_right (by decide) (by omega)
  exact ⟨_, _, _, _, _, _, rfl, fits (by omega), fits v_lt, Nat.le_trans (cut _) shift_le, fits rest,
    fits (by omega), fits (by omega)⟩

/-- The record shows deg(u) + deg(v), since u and v fit their fields (30_encoding.md R63). -/
theorem Euclid.OrderedBounded.degreeSum_record {m : Nat} {x : Euclid} (h : x.OrderedBounded m) (hm : m ≤ 8) :
    degreeSum x.record = x.degSum := by
  have exact_field {n : Nat} (low : deg n ≤ 8) : (BitVec.ofNat 10 n).toNat = n :=
    Nat.mod_eq_of_lt ((deg_lt_iff n 10).mp (by omega))
  have := h.u_le
  have := h.v_lt
  change deg (BitVec.ofNat 10 x.u).toNat + deg (BitVec.ofNat 10 x.v).toNat = deg x.u + deg x.v
  rw [exact_field (by omega), exact_field (by omega)]

/-- Each iteration starts with a sum of at least 2 and lowers it, so there are fewer than the first sum. -/
theorem Euclid.Steps.length_le {m : Nat} {x : Euclid} {recs : List StepRecord} {uEnd gEnd : Nat}
    (h : x.Steps recs uEnd gEnd) (bounded : x.Bounded m) : (recs.length : Int) ≤ max 0 (x.degSum - 1) := by
  induction recs generalizing x with
  | nil => exact Int.le_max_left _ _
  | cons rec rest ih =>
    obtain ⟨ne_one, ne_zero, -, restSteps⟩ := Euclid.steps_cons_iff.mp h
    have restLength := ih restSteps (bounded.next ne_one ne_zero)
    have lower := Euclid.next_degSum_lt ne_zero bounded.v_ne_zero
    have u_pos : 1 ≤ deg x.u := one_le_deg_iff.mpr (by omega)
    have two : 2 ≤ x.degSum := Int.add_le_add u_pos bounded.v_pos
    simp only [List.length_cons]
    omega

/-- The recorded sums go down, from at most that of the first loop variables. -/
theorem Euclid.Steps.degreeSum_decreases {m : Nat} (hm : m ≤ 8) {x : Euclid} {recs : List StepRecord}
    {uEnd gEnd : Nat} (h : x.Steps recs uEnd gEnd) (bounded : x.Bounded m) :
    (recs.map degreeSum).Pairwise (fun earlier later => later < earlier) ∧
      ∀ sum ∈ recs.map degreeSum, sum ≤ x.degSum := by
  induction recs generalizing x with
  | nil => simp
  | cons rec rest ih =>
    obtain ⟨ne_one, ne_zero, rfl, restSteps⟩ := Euclid.steps_cons_iff.mp h
    obtain ⟨decreases, below⟩ := ih restSteps (bounded.next ne_one ne_zero)
    have first : degreeSum x.ordered.record = x.degSum :=
      ((bounded.ordered ne_one ne_zero).degreeSum_record hm).trans x.ordered_degSum
    have lower := Euclid.next_degSum_lt ne_zero bounded.v_ne_zero
    rw [List.map_cons, List.pairwise_cons, List.forall_mem_cons, first]
    exact ⟨⟨fun sum mem => Int.lt_of_le_of_lt (below sum mem) lower, decreases⟩, le_rfl,
      fun sum mem => Int.le_of_lt (Int.lt_of_le_of_lt (below sum mem) lower)⟩

/-! ### The cofactors and the common factors (45_inverter.md R89) -/

/-- g1·a ≡ u and g2·a ≡ v modulo P. -/
structure Euclid.Cofactors (a P : Nat) (x : Euclid) : Prop where
  first : congruent (clmul x.g1 a) x.u P
  second : congruent (clmul x.g2 a) x.v P

theorem Euclid.Cofactors.ordered {a P : Nat} {x : Euclid} (h : x.Cofactors a P) : x.ordered.Cofactors a P := by
  obtain ⟨-, swap⟩ | ⟨-, keep⟩ := x.ordered_cases
  · rw [swap]
    exact ⟨h.second, h.first⟩
  · rwa [keep]

theorem Euclid.Cofactors.next {a P : Nat} {x : Euclid} (h : x.Cofactors a P) : x.next.Cofactors a P := by
  refine ⟨?_, h.ordered.second⟩
  change congruent (clmul (x.ordered.g1 ^^^ (x.ordered.g2 <<< x.ordered.shift)) a) _ P
  rw [clmul_xor_left, clmul_shiftLeft_left]
  exact congruent_xor h.ordered.first (congruent_shiftLeft h.ordered.second _)

/-- Every common factor of u and v is one of a and P. -/
def Euclid.FactorsCommon (a P : Nat) (x : Euclid) : Prop :=
  ∀ d, congruent x.u 0 d → congruent x.v 0 d → congruent a 0 d ∧ congruent P 0 d

theorem Euclid.FactorsCommon.ordered {a P : Nat} {x : Euclid} (h : x.FactorsCommon a P) :
    x.ordered.FactorsCommon a P := by
  obtain ⟨-, swap⟩ | ⟨-, keep⟩ := x.ordered_cases
  · rw [swap]
    exact fun d factor_u factor_v => h d factor_v factor_u
  · rwa [keep]

/-- The old u is the sum of the new one and a multiple of v. -/
theorem Euclid.FactorsCommon.next {a P : Nat} {x : Euclid} (h : x.FactorsCommon a P) : x.next.FactorsCommon a P := by
  intro d factor_u factor_v
  have old : congruent x.ordered.u 0 d := by
    have sum := congruent_xor factor_u (congruent_shiftLeft factor_v x.ordered.shift)
    rwa [Nat.zero_shiftLeft, Nat.xor_zero, Euclid.next, Euclid.update, Nat.xor_xor_cancel_right] at sum
  exact h.ordered d old factor_v

/-! ### The loop of the inverter (45_inverter.md R89, R90) -/

/-- The loop variables that the inverter starts from. -/
def Euclid.start (a P : Nat) : Euclid := { u := a, v := P, g1 := 1, g2 := 0 }

/-- What holds at the top of every iteration of the inverter. -/
structure Euclid.Inv (c : FieldCfg) (a : Nat) (x : Euclid) : Prop where
  bounded : x.Bounded c.degree
  cofactors : x.Cofactors a c.modulus
  factors : x.FactorsCommon a c.modulus

theorem Euclid.start_inv {c : FieldCfg} (valid : c.valid) {a : Nat} (ha : a < 2 ^ c.degree) :
    (Euclid.start a c.modulus).Inv c a where
  bounded := by
    have degree := valid.deg_modulus
    have lo := valid.le_degree
    have low : deg a < (c.degree : Int) := (deg_lt_iff a _).mpr ha
    have one : deg 1 = 0 := rfl
    constructor <;> simp only [Euclid.start, degree, one, deg_zero] <;> omega
  cofactors :=
    { first := by simpa only [Euclid.start, clmul_one_left] using congruent_refl a c.modulus
      second := by simpa only [Euclid.start, clmul_zero_left] using congruent_symm (congruent_modulus c.modulus) }
  factors := fun _ factor_a factor_p => ⟨factor_a, factor_p⟩

theorem Euclid.Inv.next {c : FieldCfg} {a : Nat} (x : Euclid) (ne_one : x.u ≠ 1) (ne_zero : x.u ≠ 0)
    (h : x.Inv c a) : x.next.Inv c a :=
  ⟨h.bounded.next ne_one ne_zero, h.cofactors.next, h.factors.next⟩

theorem invertLoop_of_one {x : Euclid} (one : x.u = 1) (on : Bool) (fuel : Nat) :
    invertLoop on (fuel + 1) x = Run.pure x.g1 := if_pos one

/-- One iteration of the loop. -/
theorem invertLoop_of_ne_one {x : Euclid} (ne_one : x.u ≠ 1) (on : Bool) (fuel : Nat) :
    invertLoop on (fuel + 1) x = (Run.emit on x.ordered.record).bind fun _ =>
      if x.next.u = 0 then Run.raise .notInvertible else invertLoop on fuel x.next := if_neg ne_one

/-- How the loop ends: with g1 when it stops at u = 1, and with NotInvertible when an iteration leaves u = 0. -/
def invertEnd (uEnd gEnd : Nat) : Result Nat := if uEnd = 1 then .value gEnd else .error .notInvertible

theorem Run.emit_bind_mk {α : Type} (on : Bool) (rec : StepRecord) (rest : List StepRecord) (result : Result α) :
    ((Run.emit on rec).bind fun _ => { records := if on then rest else [], result := result }) =
      { records := if on then rec :: rest else [], result := result } := by
  cases on <;> rfl

/-- With fuel above deg(u) + deg(v) the loop makes the iterations of the rule, and records each. -/
theorem invertLoop_follows_steps (fuel : Nat) {x : Euclid} (hu : x.u ≠ 0) (hv : x.v ≠ 0)
    (room : x.degSum < (fuel : Int)) : ∃ recs uEnd gEnd, x.Steps recs uEnd gEnd ∧
      ∀ on : Bool, invertLoop on fuel x = { records := if on then recs else [], result := invertEnd uEnd gEnd } := by
  induction fuel generalizing x with
  | zero =>
    rw [Euclid.degSum, deg_of_ne_zero hu, deg_of_ne_zero hv] at room
    omega
  | succ fuel ih =>
    by_cases one : x.u = 1
    · refine ⟨[], x.u, x.g1, ⟨.inl one, rfl, rfl⟩, fun on => ?_⟩
      rw [invertLoop_of_one one, invertEnd, if_pos one, ite_self]
      rfl
    have lower := Euclid.next_degSum_lt hu hv
    by_cases zero : x.next.u = 0
    · refine ⟨[x.ordered.record], x.next.u, x.next.g1,
        Euclid.steps_cons_iff.mpr ⟨one, hu, rfl, .inr zero, rfl, rfl⟩, fun on => ?_⟩
      rw [invertLoop_of_ne_one one, if_pos zero, ← Run.emit_bind_mk, invertEnd, zero, ite_self]
      rfl
    · obtain ⟨rest, uEnd, gEnd, restSteps, run⟩ := ih zero (Euclid.ordered_v_ne_zero hu hv) (by omega)
      refine ⟨x.ordered.record :: rest, uEnd, gEnd, Euclid.steps_cons_iff.mpr ⟨one, hu, rfl, restSteps⟩, fun on => ?_⟩
      rw [invertLoop_of_ne_one one, if_neg zero, run, Run.emit_bind_mk]

/-! ### The inverter (45_inverter.md R90, R92) -/

/-- The records of a traced inversion, and its bounds. -/
structure InverterTrace (m : Nat) (recs : List StepRecord) : Prop where
  length_le : recs.length ≤ 2 * m - 2
  decreases : (recs.map degreeSum).Pairwise (fun earlier later => later < earlier)
  fits : ∀ rec ∈ recs, EgcdRecordFits m rec

section
variable {c : FieldCfg} (valid : c.valid) {a : Nat} (nonzero : a ≠ 0) (ha : a < 2 ^ c.degree)
include valid ha

theorem inverterTrace_of_steps {recs : List StepRecord} {uEnd gEnd : Nat}
    (h : EuclidSteps a c.modulus 1 0 recs uEnd gEnd) : InverterTrace c.degree recs := by
  have inv := Euclid.start_inv valid ha
  have steps : (Euclid.start a c.modulus).Steps recs uEnd gEnd := h
  have degree := valid.deg_modulus
  have low : deg a < (c.degree : Int) := (deg_lt_iff a _).mpr ha
  have start : (Euclid.start a c.modulus).degSum = deg a + c.degree := congrArg (deg a + ·) degree
  have length := steps.length_le inv.bounded
  obtain ⟨decreases, -⟩ := steps.degreeSum_decreases valid.degree_le inv.bounded
  refine ⟨by omega, decreases, fun rec mem => ?_⟩
  obtain ⟨y, bounded, ne_one, ne_zero, rfl⟩ :=
    steps.record_of_invariant (I := Euclid.Bounded c.degree) (fun _ => Euclid.Bounded.next) inv.bounded mem
  exact (bounded.ordered ne_one ne_zero).record_fits

/-- The loop stops at u = 1 with an element that times a is 1, and otherwise with a factor common to a and POLY. -/
theorem euclidSteps_end {recs : List StepRecord} {uEnd gEnd : Nat}
    (h : EuclidSteps a c.modulus 1 0 recs uEnd gEnd) :
    (uEnd = 1 ∧ gEnd < 2 ^ c.degree ∧ congruent (clmul gEnd a) 1 c.modulus) ∨
    (uEnd = 0 ∧ coprime a c.modulus = false) := by
  obtain ⟨y, ⟨bounded, cofactors, factors⟩, stop, rfl, rfl⟩ :=
    Euclid.Steps.last_of_invariant (x := Euclid.start a c.modulus) Euclid.Inv.next h (Euclid.start_inv valid ha)
  have v_pos := bounded.v_pos
  refine stop.imp (fun one => ⟨one, ?_, one ▸ cofactors.first⟩) (fun zero => ⟨zero, ?_⟩)
  · have g1_le := bounded.g1_le
    exact (deg_lt_iff _ _).mp (by omega)
  · obtain ⟨factor_a, factor_p⟩ := factors y.v (zero ▸ congruent_refl 0 y.v) (congruent_modulus y.v)
    rw [← Bool.not_eq_true, coprime_iff (ne_zero_of_deg_eq valid.deg_modulus)]
    exact fun noCommon => noCommon y.v (one_le_deg_iff.mp v_pos) factor_a factor_p

include nonzero

theorem invert_follows_steps : ∃ recs uEnd gEnd, EuclidSteps a c.modulus 1 0 recs uEnd gEnd ∧
    ∀ nested on : Bool, invert c nested on a =
      Run.bind { records := if on then recs else [], result := invertEnd uEnd gEnd } (reduce c (on && nested)) := by
  have degree := valid.deg_modulus
  have hi := valid.degree_le
  have low : deg a < (c.degree : Int) := (deg_lt_iff a _).mpr ha
  have start : (Euclid.start a c.modulus).degSum = deg a + c.degree := congrArg (deg a + ·) degree
  have room : (Euclid.start a c.modulus).degSum < (inverterFuel : Int) := by
    rw [start, inverterFuel]
    omega
  obtain ⟨recs, uEnd, gEnd, steps, run⟩ :=
    invertLoop_follows_steps inverterFuel (x := Euclid.start a c.modulus) nonzero (ne_zero_of_deg_eq degree) room
  exact ⟨recs, uEnd, gEnd, steps, fun nested on => by rw [← run]; exact if_neg nonzero⟩

/-- The inverter on an element coprime to POLY: the iterations stop at u = 1, and the last reduction changes nothing. -/
theorem invert_of_coprime (noCommon : coprime a c.modulus = true) :
    ∃ recs g, EuclidSteps a c.modulus 1 0 recs 1 g ∧ g < 2 ^ c.degree ∧ product c a g = 1 ∧
      ∀ nested on : Bool, invert c nested on a =
        { records := if on then recs ++ nestedMod nested g else [], result := .value g } := by
  obtain ⟨recs, uEnd, g, steps, run⟩ := invert_follows_steps valid nonzero ha
  obtain ⟨rfl, small, inverse⟩ | ⟨-, common⟩ := euclidSteps_end valid ha steps
  · rw [clmul_comm] at inverse
    refine ⟨recs, g, steps, small, (eq_product_of_congruent valid ha small valid.one_lt inverse).symm,
      fun nested on => ?_⟩
    rw [run, invertEnd, if_pos rfl, Run.bind_value, reduce_of_lt valid.deg_modulus small]
    cases on <;> rfl
  · rw [noCommon] at common
    cases common

/-- The inverter on an element that shares a factor with POLY: the iterations stop at u = 0, since an inverse would
make it coprime. -/
theorem invert_of_not_coprime (common : coprime a c.modulus = false) :
    ∃ recs g, EuclidSteps a c.modulus 1 0 recs 0 g ∧ ∀ nested on : Bool, invert c nested on a =
      { records := if on then recs else [], result := .error .notInvertible } := by
  obtain ⟨recs, uEnd, g, steps, run⟩ := invert_follows_steps valid nonzero ha
  obtain ⟨-, -, inverse⟩ | ⟨rfl, -⟩ := euclidSteps_end valid ha steps
  · rw [coprime_of_inverse (ne_zero_of_deg_eq valid.deg_modulus) inverse] at common
    cases common
  · exact ⟨recs, g, steps, fun nested on => run nested on⟩

end

theorem coprime_element_of_irreducible {c : FieldCfg} (valid : c.valid) {a : Nat} (nonzero : a ≠ 0)
    (ha : a < 2 ^ c.degree) (irred : irreducible c.modulus = true) : coprime a c.modulus = true :=
  coprime_of_irreducible irred nonzero (valid.deg_modulus ▸ (deg_lt_iff a _).mpr ha)

/-- Settles O44: the cofactor invariant makes the last g1 the inverse, and the loop stops at u = 0 only with a common
factor. -/
theorem inverseIsTheRingInverse : Obligations.InverseIsTheRingInverse := by
  intro c nested on a valid positive ha
  have nonzero : a ≠ 0 := Nat.ne_zero_of_lt positive
  refine ⟨fun noCommon => ?_, fun common => ?_, coprime_element_of_irreducible valid nonzero ha⟩
  · obtain ⟨recs, g, -, small, inverse, run⟩ := invert_of_coprime valid nonzero ha noCommon
    exact ⟨g, by rw [run], small, inverse⟩
  · obtain ⟨recs, g, -, run⟩ := invert_of_not_coprime valid nonzero ha common
    rw [run]

/-- Under (8, 0x11B) the longest inversions take 12 iterations, by enumeration of the elements (45_inverter.md R90). -/
theorem aes_inversion_length_le : ∀ a < 256, (invert { m := 8, poly := 0x11B } false true a).records.length ≤ 12 := by
  decide +kernel

/-- Settles O43: the bounds of the iterations that the loop makes, whichever way it ends. -/
theorem inverterBounds : Obligations.InverterBounds := by
  refine ⟨fun c a valid positive ha => ?_, fun a _ small => aes_inversion_length_le a small,
    0x75, by decide, by decide, by decide +kernel⟩
  have nonzero : a ≠ 0 := Nat.ne_zero_of_lt positive
  cases prime : coprime a c.modulus with
  | true =>
    obtain ⟨recs, g, steps, small, -, run⟩ := invert_of_coprime valid nonzero ha prime
    have records : (invert c false true a).records = recs := by
      rw [run]
      exact List.append_nil recs
    obtain ⟨length, decreases, fits⟩ := inverterTrace_of_steps valid ha steps
    rw [records]
    refine ⟨length, decreases, fits, fun g' value => ?_⟩
    rw [run] at value
    cases value
    exact ⟨small, by rw [run]; rfl⟩
  | false =>
    obtain ⟨recs, g, steps, run⟩ := invert_of_not_coprime valid nonzero ha prime
    obtain ⟨length, decreases, fits⟩ := inverterTrace_of_steps valid ha steps
    rw [run]
    exact ⟨length, decreases, fits, fun g' value => by cases value⟩

/-! ### INV (45_inverter.md R91) -/

/-- The body of INV inverts mask(A), with the command's trace setting. -/
theorem invBody_eq (t : Bool) (s : State) :
    commandBody (.inv t) (s.beginCommand t) = (invert s.cfg Config.traceNested t (elementA s)).toRes := by
  rw [← maskedA_eq_elementA]
  rfl

theorem FieldCfg.valid.two_le_modulus {c : FieldCfg} (valid : c.valid) : 2 ≤ c.modulus := by
  have lo := valid.le_degree
  rw [← one_le_deg_iff, valid.deg_modulus]
  omega

theorem invert_zero (c : FieldCfg) (nested on : Bool) : invert c nested on 0 = Run.raise .noInverse := rfl

/-- A command whose datapath raises an error, with records that fit the trace, keeps them and sets STATUS.ERR. -/
theorem exec_of_toRes_error {i : Instr} {s : State} {run : Run Nat} {recs : List StepRecord} {e : CoreError}
    (body : commandBody i (s.beginCommand i.traced) = run.toRes)
    (answer : run = { records := recs, result := .error e }) (room : recs.length ≤ Config.traceDepth) :
    exec i s = .next (commandDone s (.raised e) recs) := by
  subst answer
  exact (exec_eq_frame i s).trans (frame_raises (body.trans (Run.toRes_mk recs (.error e))) room)

theorem nestedMod_length_le (nested : Bool) (g : Nat) : (nestedMod nested g).length ≤ 1 := by
  cases nested
  · exact Nat.zero_le 1
  · exact le_rfl

/-- Records that fit the trace fit it whether they are kept or not. -/
theorem kept_length_le {recs : List StepRecord} {n : Nat} (fits : recs.length ≤ n) (on : Bool) :
    (if on then recs else []).length ≤ n := by
  cases on
  · exact Nat.zero_le n
  · exact fits

/-- Settles O45: INV answers what the inverter does, whose records fit the trace. -/
theorem invWritesTheInverse : Obligations.InvWritesTheInverse := by
  refine ⟨by decide, fun t s valid => ?_⟩
  have ha := elementA_lt s
  have hi := valid.degree_le
  refine ⟨fun zero => ?_, fun nonzero common => ?_, fun irred nonzero => ?_, fun noCommon => ?_⟩
  · exact exec_of_toRes_error (invBody_eq t s) (zero ▸ invert_zero _ _ _) (Nat.zero_le _)
  · obtain ⟨recs, g, steps, run⟩ := invert_of_not_coprime valid nonzero ha common
    have length := (inverterTrace_of_steps valid ha steps).length_le
    refine ⟨recs, g, steps, exec_of_toRes_error (invBody_eq t s) (run _ t) (kept_length_le ?_ t)⟩
    rw [Config.traceDepth]
    omega
  · exact coprime_element_of_irreducible valid nonzero ha irred
  · have nonzero : elementA s ≠ 0 := by
      intro zero
      rw [zero, coprime_zero valid.two_le_modulus] at noCommon
      cases noCommon
    obtain ⟨recs, g, steps, small, inverse, run⟩ := invert_of_coprime valid nonzero ha noCommon
    have length := (inverterTrace_of_steps valid ha steps).length_le
    have reduction := nestedMod_length_le Config.traceNested g
    refine ⟨recs, g, steps, small, inverse, exec_of_toRes (invBody_eq t s) (run _ t) (kept_length_le ?_ t)⟩
    rw [List.length_append, Config.traceDepth]
    omega

end Sys2Proof.Machine
end

section
/-! Division and DIV (46_division.md R93 to R95): the inverter's answer decides whether the multiplier runs, so division
raises the inverter's errors, and otherwise gives the product of the dividend and the inverse. -/

namespace Sys2Proof.Machine

/-! ### The datapath (46_division.md R93) -/

theorem divide_zero (c : FieldCfg) (nested on : Bool) (a : Nat) : divide c nested on a 0 = Run.raise .noInverse := rfl

theorem ne_zero_of_coprime {c : FieldCfg} (valid : c.valid) {b : Nat} (noCommon : coprime b c.modulus = true) :
    b ≠ 0 := by
  rintro rfl
  rw [coprime_zero valid.two_le_modulus] at noCommon
  cases noCommon

/-- The multiplier's records as its own and then those of the reduction, at most m (43_multiplier.md R82). -/
theorem multiply_follows_trace {c : FieldCfg} (valid : c.valid) {a b : Nat} (ha : a < 2 ^ c.degree)
    (hb : b < 2 ^ c.degree) :
    ∃ red, ReduceTrace c.modulus (clmul a b) red (product c a b) ∧ red.length ≤ c.degree ∧
      ∀ on : Bool, multiply c on a b =
        { records := if on then mulTrace c.degree a b ++ red else [], result := .value (product c a b) } := by
  obtain ⟨steps, passes, -, run⟩ := multiply_follows_steps valid ha hb
  have count := multiply_records_length_le valid ha hb true
  rw [run, if_pos rfl, List.length_append, mulTrace_length] at count
  exact ⟨steps.map passRecord ++ [modRecord _ _], ⟨steps, passes, rfl⟩, by omega, run⟩

/-- The product with an inverse of `b` is undone by the product with `b`: (a·g)·b = a·(b·g) = a. -/
theorem product_inverse_product {c : FieldCfg} (valid : c.valid) {a b g : Nat} (ha : a < 2 ^ c.degree)
    (hb : b < 2 ^ c.degree) (hg : g < 2 ^ c.degree) (inverse : product c b g = 1) :
    product c (product c a g) b = a := by
  rw [product_assoc valid ha hg hb, product_comm valid hg hb, inverse, product_one valid ha]

section
variable {c : FieldCfg} (valid : c.valid) {b : Nat} (hb : b < 2 ^ c.degree)
include valid hb

/-- A divisor that shares a factor with POLY ends the division in the inverter, before any product. -/
theorem divide_of_not_coprime (nonzero : b ≠ 0) (common : coprime b c.modulus = false) :
    ∃ recs g, EuclidSteps b c.modulus 1 0 recs 0 g ∧ ∀ (nested on : Bool) (a : Nat), divide c nested on a b =
      { records := if on then recs else [], result := .error .notInvertible } := by
  obtain ⟨recs, g, steps, run⟩ := invert_of_not_coprime valid nonzero hb common
  exact ⟨recs, g, steps, fun nested on a => by rw [divide, run, Run.bind_error]⟩

/-- Division by a divisor coprime to POLY: the inverter's iterations, then the multiplication by the inverse. -/
theorem divide_of_coprime (noCommon : coprime b c.modulus = true) {a : Nat} (ha : a < 2 ^ c.degree) :
    ∃ recs red g, EuclidSteps b c.modulus 1 0 recs 1 g ∧ g < 2 ^ c.degree ∧ product c b g = 1 ∧
      ReduceTrace c.modulus (clmul a g) red (product c a g) ∧ red.length ≤ c.degree ∧
      ∀ nested on : Bool, divide c nested on a b =
        { records := if on then recs ++ nestedMod nested g ++ mulTrace c.degree a g ++ red else [],
          result := .value (product c a g) } := by
  obtain ⟨recs, g, steps, small, inverse, inversion⟩ :=
    invert_of_coprime valid (ne_zero_of_coprime valid noCommon) hb noCommon
  obtain ⟨red, trace, count, multiplication⟩ := multiply_follows_trace valid ha small
  refine ⟨recs, red, g, steps, small, inverse, trace, count, fun nested on => ?_⟩
  rw [divide, inversion, Run.bind_value, multiplication]
  cases on
  · rfl
  · simp only [if_true, List.append_assoc]

end

/-- Settles O47: the quotient is the product with the ring inverse, which the divisor cancels. -/
theorem divisionUndoesMultiplication : Obligations.DivisionUndoesMultiplication := by
  intro c nested on a b valid ha hb
  refine ⟨fun zero => ?_, fun nonzero common => ?_, fun nonzero invertible => ?_⟩
  · rw [zero, divide_zero, Run.raise]
  · obtain ⟨recs, g, -, run⟩ := divide_of_not_coprime valid hb nonzero common
    rw [run]
  · have noCommon : coprime b c.modulus = true :=
      invertible.elim id (coprime_element_of_irreducible valid nonzero hb)
    obtain ⟨recs, red, g, -, small, inverse, -, -, run⟩ := divide_of_coprime valid hb noCommon ha
    exact ⟨product c a g, by rw [run], product_lt valid ha small, product_inverse_product valid ha hb small inverse⟩

/-! ### DIV (46_division.md R94) -/

/-- The body of DIV divides mask(A) by mask(B), with the command's trace setting. -/
theorem divBody_eq (t : Bool) (s : State) :
    commandBody (.div t) (s.beginCommand t) =
      (divide s.cfg Config.traceNested t (elementA s) (elementB s)).toRes := by
  rw [← maskedA_eq_elementA, ← maskedB_eq_elementB]
  rfl

/-- Settles O46: DIV answers what the divider does; at most 2m - 1 records of the inverter and 2m of the multiplier fit
the trace. -/
theorem divWritesTheQuotient : Obligations.DivWritesTheQuotient := by
  refine ⟨by decide, fun t s valid => ?_⟩
  have ha := elementA_lt s
  have hb := elementB_lt s
  have hi := valid.degree_le
  refine ⟨fun zero => ?_, fun nonzero common => ?_, fun irred nonzero => ?_, fun noCommon => ?_⟩
  · exact exec_of_toRes_error (divBody_eq t s) (zero ▸ divide_zero _ _ _ _) (Nat.zero_le _)
  · obtain ⟨recs, g, steps, run⟩ := divide_of_not_coprime valid hb nonzero common
    have length := (inverterTrace_of_steps valid hb steps).length_le
    refine ⟨recs, g, steps, exec_of_toRes_error (divBody_eq t s) (run _ t _) (kept_length_le ?_ t)⟩
    rw [Config.traceDepth]
    omega
  · exact coprime_element_of_irreducible valid nonzero hb irred
  · obtain ⟨recs, red, g, steps, small, inverse, trace, count, run⟩ := divide_of_coprime valid hb noCommon ha
    refine ⟨recs, red, g, product s.cfg (elementA s) g, steps, trace, product_lt valid ha small, inverse,
      product_inverse_product valid ha hb small inverse, exec_of_toRes (divBody_eq t s) (run _ t) (kept_length_le ?_ t)⟩
    have inversion := (inverterTrace_of_steps valid hb steps).length_le
    have reduction := nestedMod_length_le Config.traceNested g
    simp only [List.length_append, mulTrace_length, Config.traceDepth]
    omega

end Sys2Proof.Machine
end

section
/-! The step recorder (47_step_recorder.md R96 to R100): the trace setting decides which records are kept and nothing
else, so it changes no result; a command starts with an empty trace; and the records of a command are bounded. -/

namespace Sys2Proof.Machine

/-! ### The trace setting changes no result (47_step_recorder.md R99) -/

theorem Run.bind_result_congr {α β : Type} {first first' : Run α} {next next' : α → Run β}
    (same : first.result = first'.result) (rest : ∀ v, (next v).result = (next' v).result) :
    (first.bind next).result = (first'.bind next').result := by
  rw [Run.bind_result, Run.bind_result, same]
  cases first'.result with
  | value v => exact rest v
  | error e => rfl
  | neverEnds => rfl

/-- The guard and the remainder do not look at the setting. -/
theorem reduce_result_congr (c : FieldCfg) (on on' : Bool) (x : Nat) :
    (reduce c on x).result = (reduce c on' x).result := by
  by_cases degree : deg c.modulus = (c.degree : Int)
  · rw [reduce_of_degree degree, reduce_of_degree degree]
  · rw [reduce_of_deg_ne degree, reduce_of_deg_ne degree]

theorem multiply_result_congr (c : FieldCfg) (on on' : Bool) (a b : Nat) :
    (multiply c on a b).result = (multiply c on' a b).result :=
  reduce_result_congr c on on' (rawProduct a b c.degree)

theorem powerLoop_result_congr (c : FieldCfg) (nested nested' on on' : Bool) (fuel e b acc : Nat) :
    (powerLoop c nested on fuel e b acc).result = (powerLoop c nested' on' fuel e b acc).result := by
  induction fuel generalizing e b acc with
  | zero => rfl
  | succ fuel ih =>
    unfold powerLoop
    split
    · rfl
    · refine Run.bind_result_congr ?_ fun acc' => Run.bind_result_congr (multiply_result_congr c _ _ b b) fun b' =>
        Run.bind_result_congr rfl fun _ => ih _ b' acc'
      split
      · exact multiply_result_congr c _ _ acc b
      · rfl

theorem invertLoop_result_congr (on on' : Bool) (fuel : Nat) (x : Euclid) :
    (invertLoop on fuel x).result = (invertLoop on' fuel x).result := by
  induction fuel generalizing x with
  | zero => rfl
  | succ fuel ih =>
    unfold invertLoop
    split
    · rfl
    · refine Run.bind_result_congr rfl fun _ => ?_
      split
      · rfl
      · exact ih _

theorem invert_result_congr (c : FieldCfg) (nested nested' on on' : Bool) (a : Nat) :
    (invert c nested on a).result = (invert c nested' on' a).result := by
  unfold invert
  split
  · rfl
  · exact Run.bind_result_congr (invertLoop_result_congr on on' _ _) fun g1 => reduce_result_congr c _ _ g1

theorem divide_result_congr (c : FieldCfg) (nested nested' on on' : Bool) (a b : Nat) :
    (divide c nested on a b).result = (divide c nested' on' a b).result :=
  Run.bind_result_congr (invert_result_congr c nested nested' on on' b) fun y => multiply_result_congr c on on' a y

theorem Run.toRes_result_congr {run run' : Run Nat} (same : run.result = run'.result) :
    run.toRes.result = run'.toRes.result :=
  Run.bind_result_congr same fun _ => rfl

/-- What a command body answers does not depend on T. -/
theorem commandBody_result_congr (i : Instr) (s : State) (t t' : Bool) :
    (commandBody i (s.beginCommand t)).result = (commandBody i (s.beginCommand t')).result := by
  cases i with
  | setcfg _ | defcfg _ | deg _ | add _ => rfl
  | red _ => exact Run.toRes_result_congr (reduce_result_congr s.cfg t t' _)
  | mul _ => exact Run.toRes_result_congr (multiply_result_congr s.cfg t t' _ _)
  | pow _ => exact Run.toRes_result_congr (powerLoop_result_congr s.cfg _ _ t t' _ _ _ _)
  | inv _ => exact Run.toRes_result_congr (invert_result_congr s.cfg _ _ t t' _)
  | div _ => exact Run.toRes_result_congr (divide_result_congr s.cfg _ _ t t' _ _)

/-! ### Flipping T (47_step_recorder.md R99) -/

/-- RES, CFG and STATUS after the frame are decided by the body's result. -/
theorem frame_next_congr {t t' : Bool} {body : State → Run Effect} {s u : State}
    (same : (body (s.beginCommand t')).result = (body (s.beginCommand t)).result) (h : frame t body s = .next u) :
    ∃ u', frame t' body s = .next u' ∧ u'.res = u.res ∧ u'.cfg = u.cfg ∧ u'.err = u.err := by
  rw [frame_eq] at h ⊢
  rw [same]
  generalize (body (s.beginCommand t)).result = result at h ⊢
  obtain (v | c) | e | _ := result
  · cases h
    exact ⟨_, rfl, rfl, rfl, rfl⟩
  · cases h
    exact ⟨_, rfl, rfl, rfl, rfl⟩
  · cases h
    exact ⟨_, rfl, rfl, rfl, rfl⟩
  · cases h

theorem commandBody_flipT (i : Instr) : commandBody (flipT i) = commandBody i := by
  cases i <;> rfl

theorem encode_flipT (i : Instr) : encode (flipT i) = encode i ^^^ 0x10 := by
  cases i with
  | setcfg t | defcfg t | deg t | add t | red t | mul t | pow t | inv t | div t => cases t <;> decide

theorem decodeWord_encode (i : Instr) : decodeWord (encode i) = .command i := by
  cases i with
  | setcfg t | defcfg t | deg t | add t | red t | mul t | pow t | inv t | div t => cases t <;> decide

theorem decodeWord_flipped {w : Word} {i : Instr} (command : decodeWord w = .command i) :
    decodeWord (w ^^^ 0x10) = .command (flipT i) := by
  rw [eq_encode_of_decodeWord command, ← encode_flipT, decodeWord_encode]

/-- Flipping T of a word that is no command gives a word that is no command. -/
theorem decodeWord_flipped_illegal {w : Word} {why : IllegalReason} (illegal : decodeWord w = .illegal why) :
    ∃ why', decodeWord (w ^^^ 0x10) = .illegal why' := by
  rcases flipped : decodeWord (w ^^^ 0x10) with i | why'
  · have command := decodeWord_flipped flipped
    rw [BitVec.xor_assoc, BitVec.xor_self, BitVec.xor_zero, illegal] at command
    cases command
  · exact ⟨why', rfl⟩

theorem runCommandWord_flipped {w : Word} {s t : State} (h : runCommandWord w s = .next t) :
    ∃ u, runCommandWord (w ^^^ 0x10) s = .next u ∧ u.res = t.res ∧ u.cfg = t.cfg ∧ u.err = t.err := by
  obtain ⟨i, command, run⟩ | ⟨why, illegal, run⟩ := runCommandWord_cases w s
  · rw [run, exec_eq_frame] at h
    rw [runCommandWord, decodeWord_flipped command]
    dsimp only
    rw [exec_eq_frame, commandBody_flipT]
    exact frame_next_congr (commandBody_result_congr i s _ _) h
  · obtain ⟨why', illegal'⟩ := decodeWord_flipped_illegal illegal
    exact ⟨t, by rw [runCommandWord_of_illegal illegal', ← run, h], rfl, rfl, rfl⟩

/-- A command starts with an empty trace, whatever an earlier one recorded (47_step_recorder.md R96). -/
theorem exec_of_other_trace (i : Instr) (s : State) (old : List StepRecord) :
    exec i { s with trace := old } = exec i s := by
  rw [exec_eq_frame, exec_eq_frame]
  rfl

/-- Settles O55: T reaches the records of the datapath only, a flipped word is the same command with the other T, and
a command drops the old trace unread. -/
theorem traceNeverChangesAResult : Obligations.TraceNeverChangesAResult := by
  refine ⟨fun w s t h => runCommandWord_flipped h, fun c nested nested' on on' a b => ?_, exec_of_other_trace⟩
  exact ⟨reduce_result_congr c on on' a, multiply_result_congr c on on' a b,
    powerLoop_result_congr c nested nested' on on' _ b a 1, invert_result_congr c nested nested' on on' a,
    divide_result_congr c nested nested' on on' a b⟩

/-! ### What a command leaves in the trace (47_step_recorder.md R96, R97) -/

/-- The trace after a command holds those of its body's records that fit, and nothing older. -/
theorem exec_trace {i : Instr} {s t : State} (h : exec i s = .next t) :
    t.trace = ((s.beginCommand i.traced).emitAll (commandBody i (s.beginCommand i.traced)).records).trace := by
  rw [exec_eq_frame, frame_eq] at h
  generalize (commandBody i (s.beginCommand i.traced)).result = result at h
  obtain (v | c) | e | _ := result <;> cases h <;> rfl

theorem exec_trace_of_no_records {i : Instr} {s t : State} (h : exec i s = .next t)
    (none : (commandBody i (s.beginCommand i.traced)).records = []) : t.trace = [] := by
  rw [exec_trace h, none, State.emitAll, State.beginCommand_trace]

theorem Run.bind_records_eq_nil {α β : Type} {first : Run α} {next : α → Run β} (none : first.records = [])
    (rest : ∀ v, (next v).records = []) : (first.bind next).records = [] := by
  obtain ⟨recs, v | e | _⟩ := first
  · exact List.append_eq_nil_iff.mpr ⟨none, rest v⟩
  · exact none
  · exact none

/-! With tracing off no datapath function records anything, whatever TRACE_NESTED is. -/

theorem reduce_records_off (c : FieldCfg) (x : Nat) : (reduce c false x).records = [] := by
  unfold reduce
  split
  · rfl
  · exact List.append_eq_nil_iff.mpr ⟨reduceLoop_records_off _ _ _, rfl⟩

theorem multiply_records_off (c : FieldCfg) (a b : Nat) : (multiply c false a b).records = [] :=
  reduce_records_off c (rawProduct a b c.degree)

theorem powerLoop_records_off (c : FieldCfg) (nested : Bool) (fuel e b acc : Nat) :
    (powerLoop c nested false fuel e b acc).records = [] := by
  induction fuel generalizing e b acc with
  | zero => rfl
  | succ fuel ih =>
    unfold powerLoop
    split
    · rfl
    · refine Run.bind_records_eq_nil ?_ fun acc' => Run.bind_records_eq_nil (multiply_records_off c b b) fun b' =>
        ih _ b' acc'
      split
      · exact multiply_records_off c acc b
      · rfl

theorem invertLoop_records_off (fuel : Nat) (x : Euclid) : (invertLoop false fuel x).records = [] := by
  induction fuel generalizing x with
  | zero => rfl
  | succ fuel ih =>
    unfold invertLoop
    split
    · rfl
    · refine Run.bind_records_eq_nil rfl fun _ => ?_
      split
      · rfl
      · exact ih _

theorem invert_records_off (c : FieldCfg) (nested : Bool) (a : Nat) : (invert c nested false a).records = [] := by
  unfold invert
  split
  · rfl
  · exact Run.bind_records_eq_nil (invertLoop_records_off _ _) fun g1 => reduce_records_off c g1

theorem divide_records_off (c : FieldCfg) (nested : Bool) (a b : Nat) : (divide c nested false a b).records = [] :=
  Run.bind_records_eq_nil (invert_records_off c nested b) fun y => multiply_records_off c a y

theorem setcfgBody_records (s : State) : (setcfgBody s).records = [] := by
  unfold setcfgBody
  split
  · rfl
  · split <;> rfl

theorem defcfgBody_records (s : State) : (defcfgBody s).records = [] := by
  unfold defcfgBody
  split <;> rfl

theorem commandBody_records_off {i : Instr} {s : State} (off : s.tracing = false) :
    (commandBody i s).records = [] := by
  cases i with
  | setcfg _ => exact setcfgBody_records s
  | defcfg _ => exact defcfgBody_records s
  | deg _ | add _ => rfl
  | red _ | mul _ | pow _ | inv _ | div _ =>
    simp only [commandBody, redBody, mulBody, powBody, invBody, divBody, Run.toRes_records, off, power,
      reduce_records_off, multiply_records_off, powerLoop_records_off, invert_records_off, divide_records_off]

/-- A command that has no variants of its own is SETCFG, DEFCFG, DEG or ADD, whose body has no datapath loop. -/
theorem commandBody_records_of_no_tags {i : Instr} (none : ownTags i = []) (s : State) :
    (commandBody i s).records = [] := by
  cases i with
  | setcfg _ => exact setcfgBody_records s
  | defcfg _ => exact defcfgBody_records s
  | deg _ | add _ => rfl
  | red _ | mul _ | pow _ | inv _ | div _ => cases none

/-- Settles O57: a legal command starts from an empty trace and an illegal one leaves the trace alone. -/
theorem legalCommandsClearTheTrace : Obligations.LegalCommandsClearTheTrace := by
  refine ⟨fun i s t h untraced => ?_, fun i s t h none => ?_, exec_of_other_trace, fun w why s illegal => ?_⟩
  · exact exec_trace_of_no_records h (commandBody_records_off untraced)
  · exact exec_trace_of_no_records h (commandBody_records_of_no_tags none _)
  · exact ⟨_, runCommandWord_of_illegal illegal s, rfl⟩

/-! ### How many records a command makes (47_step_recorder.md R100) -/

theorem State.emit_traceCount_le (s : State) (rec : StepRecord) : (s.emit rec).traceCount ≤ s.traceCount + 1 := by
  unfold State.emit
  split
  · simp [State.traceCount]
  · exact Nat.le_succ _

theorem State.emitAll_traceCount_le_add (s : State) (recs : List StepRecord) :
    (s.emitAll recs).traceCount ≤ s.traceCount + recs.length := by
  induction recs generalizing s with
  | nil => exact le_rfl
  | cons rec rest ih =>
    have here := s.emit_traceCount_le rec
    have there := ih (s.emit rec)
    rw [State.emitAll, List.length_cons]
    omega

theorem exec_traceCount_le {i : Instr} {s t : State} (h : exec i s = .next t) :
    t.traceCount ≤ (commandBody i (s.beginCommand i.traced)).records.length := by
  have count := (s.beginCommand i.traced).emitAll_traceCount_le_add (commandBody i (s.beginCommand i.traced)).records
  rwa [State.traceCount, State.traceCount, ← exec_trace h, State.beginCommand_trace, List.length_nil,
    Nat.zero_add] at count

theorem Run.bind_records_length_le {α β : Type} {first : Run α} {next : α → Run β} {n k : Nat}
    (head : first.records.length ≤ n) (tail : ∀ v, first.result = .value v → (next v).records.length ≤ k) :
    (first.bind next).records.length ≤ n + k := by
  obtain ⟨recs, v | e | _⟩ := first
  · rw [Run.bind_value, List.length_append]
    exact Nat.add_le_add head (tail v rfl)
  · exact head.trans (Nat.le_add_right n k)
  · exact head.trans (Nat.le_add_right n k)

theorem nestedMod_length (nested : Bool) (g : Nat) : (nestedMod nested g).length = if nested then 1 else 0 := by
  cases nested <;> rfl

section
variable {c : FieldCfg} (valid : c.valid)
include valid

/-- A reduction of 16 bits: at most 16 - m passes, and the Mod record. -/
theorem reduce_records_length_le {x : Nat} (hx : x < 2 ^ 16) (on : Bool) :
    (reduce c on x).records.length ≤ 17 - c.degree := by
  obtain ⟨steps, r, passes, -, run⟩ := reduce_follows_steps valid.deg_modulus hx
  have hi := valid.degree_le
  have passCount := passes.length_le_of_lt valid.deg_modulus (by omega) hx
  rw [run]
  refine kept_length_le ?_ on
  simp only [List.length_append, List.length_map, List.length_singleton]
  omega

theorem power_records_length_le (nested on : Bool) {base e : Nat} (hb : base < 2 ^ c.degree) (he : e < 2 ^ 32) :
    (power c nested on base e).records.length ≤ if nested then 32 * (1 + 2 * c.degree + 2 * c.degree) else 32 := by
  have fits := powTrace_length_le valid nested hb he
  rw [power_follows_iterations valid nested on hb he]
  refine kept_length_le (fits.trans ?_) on
  cases nested <;> exact le_rfl

/-- At most 2m - 2 iterations, and the record of the last reduction when TRACE_NESTED. -/
theorem invert_records_length_le (nested on : Bool) {a : Nat} (ha : a < 2 ^ c.degree) :
    (invert c nested on a).records.length ≤ (2 * c.degree - 2) + if nested then 1 else 0 := by
  by_cases nonzero : a = 0
  · rw [nonzero, invert_zero]
    exact Nat.zero_le _
  cases prime : coprime a c.modulus with
  | true =>
    obtain ⟨recs, g, steps, -, -, run⟩ := invert_of_coprime valid nonzero ha prime
    rw [run]
    refine kept_length_le ?_ on
    rw [List.length_append, nestedMod_length]
    exact Nat.add_le_add_right (inverterTrace_of_steps valid ha steps).length_le _
  | false =>
    obtain ⟨recs, g, steps, run⟩ := invert_of_not_coprime valid nonzero ha prime
    rw [run]
    exact kept_length_le ((inverterTrace_of_steps valid ha steps).length_le.trans (Nat.le_add_right _ _)) on

/-- The records of the inversion, then those of the multiplication by the inverse. -/
theorem divide_records_length_le (nested on : Bool) {a b : Nat} (ha : a < 2 ^ c.degree) (hb : b < 2 ^ c.degree) :
    (divide c nested on a b).records.length ≤ (2 * c.degree - 2 + 1) + 2 * c.degree := by
  refine Run.bind_records_length_le ?_ fun y value => ?_
  · refine (invert_records_length_le valid nested on hb).trans (Nat.add_le_add_left ?_ _)
    cases nested <;> decide
  · exact multiply_records_length_le valid ha (invert_isElement c nested on b y value) on

end

/-- Every command body keeps its bound, for the TRACE_NESTED of the core. -/
theorem commandBody_records_length_le (i : Instr) {s : State} (valid : s.cfg.valid) :
    (commandBody i (s.beginCommand i.traced)).records.length ≤ traceBound Config.traceNested s.cfg.degree i := by
  have ha := elementA_lt s
  have hb := elementB_lt s
  cases i with
  | setcfg _ => exact Nat.le_of_eq (congrArg List.length (setcfgBody_records _))
  | defcfg _ => exact Nat.le_of_eq (congrArg List.length (defcfgBody_records _))
  | deg _ | add _ => exact le_rfl
  | red t =>
    rw [commandBody, redBody, Run.toRes_records]
    exact reduce_records_length_le valid s.x.isLt t
  | mul t =>
    rw [Instr.traced, mulBody_eq, Run.toRes_records]
    exact multiply_records_length_le valid ha hb t
  | pow t =>
    rw [Instr.traced, powBody_eq, Run.toRes_records]
    exact power_records_length_le valid _ t ha s.e.isLt
  | inv t =>
    rw [Instr.traced, invBody_eq, Run.toRes_records]
    exact invert_records_length_le valid _ t ha
  | div t =>
    rw [Instr.traced, divBody_eq, Run.toRes_records]
    exact divide_records_length_le valid _ t ha hb

/-- The largest bound, of POW under TRACE_NESTED, is 32 · 33 = 1056 at m = 8. -/
theorem traceBound_lt_traceDepth (nested : Bool) {m : Nat} (hm : m ≤ 8) (i : Instr) :
    traceBound nested m i < Config.traceDepth := by
  rw [Config.traceDepth]
  cases i with
  | setcfg _ | defcfg _ | deg _ | add _ => exact Nat.zero_lt_succ 2047
  | red _ | mul _ | div _ =>
    rw [traceBound]
    omega
  | pow _ | inv _ =>
    rw [traceBound]
    split <;> omega

/-- Settles O56: a command keeps at most its body's records, each datapath function keeps its bound for both values of
TRACE_NESTED, and the buffer holds them all. -/
theorem traceBounds : Obligations.TraceBounds := by
  refine ⟨fun i s t valid h => (exec_traceCount_le h).trans (commandBody_records_length_le i valid),
    fun nested m i hm => traceBound_lt_traceDepth nested hm i, fun c nested a b valid ha he => ?_⟩
  exact ⟨power_records_length_le valid nested true ha he, invert_records_length_le valid nested true ha,
    fun d hd => divide_records_length_le valid nested true hd ha⟩

end Sys2Proof.Machine
end

section
/-! The encoder and the bytes of a command word (30_encoding.md R50 to R53, 20_memory.md R42): decoding undoes encoding,
as words and as the bytes of the bus. -/

namespace Sys2Proof

/-- The four byte lanes of a word, put together again (20_memory.md R42). -/
theorem wordOfLanes_byteLane (w : Word) :
    wordOfLanes (byteLane w 0) (byteLane w 1) (byteLane w 2) (byteLane w 3) = w := by
  unfold wordOfLanes byteLane
  repeat rw [BitVec.extractLsb'_append_extractLsb'_eq_extractLsb' (by decide)]
  exact BitVec.extractLsb'_eq_self

theorem decodeBytes_lanesOfWord (w : Word) (rest : List Byte) :
    decodeBytes (lanesOfWord w ++ rest) = (decodeWord w, rest) := by
  have lanes : decodeBytes (lanesOfWord w ++ rest) =
      (decodeWord (wordOfLanes (byteLane w 0) (byteLane w 1) (byteLane w 2) (byteLane w 3)), rest) := rfl
  rw [lanes, wordOfLanes_byteLane]

theorem decodeWord_eq_command_iff_eq_encode {w : Word} {i : Instr} : decodeWord w = .command i ↔ w = encode i :=
  ⟨eq_encode_of_decodeWord, fun word => word ▸ Machine.decodeWord_encode i⟩

/-- Settles O9: a command's word is the only one that decodes to it, and the bytes of a word are put together again. -/
theorem decodeAndEncodeAgree : Obligations.DecodeAndEncodeAgree := by
  refine ⟨fun w i => decodeWord_eq_command_iff_eq_encode, fun i rest => ?_, decodeBytes_lanesOfWord⟩
  rw [encodeBytes, decodeBytes_lanesOfWord, Machine.decodeWord_encode]

/-- Settles O8: the nine words, computed. -/
theorem writtenWordsDecode : Obligations.WrittenWordsDecode := by
  unfold Obligations.WrittenWordsDecode
  decide

end Sys2Proof
end

section
/-! The register map both ways (20_memory.md R33), the fields that the registers read as (10_state.md R15 to R26), and
the lines of a host program as accesses of the map (30_encoding.md R64, R65). -/

namespace Sys2Proof.Machine

/-! ### The register map, both ways (20_memory.md R33) -/

theorem regAt_eq_some_iff {off : Nat} (aligned : off % 4 = 0) {r : Reg} :
    regAt off = some r ↔ r.wf = true ∧ r.offset = off := by
  refine ⟨fun found => ?_, fun ⟨wf, here⟩ => here ▸ regAt_offset wf⟩
  obtain ⟨r', wf, rfl⟩ | reserved := offset_cases aligned
  · rw [regAt_offset wf] at found
    cases found
    exact ⟨wf, rfl⟩
  · rw [regAt_reserved reserved] at found
    cases found

/-- Settles O14: every aligned offset is that of one register of the map, or reserved. -/
theorem registerMapIsExact : Obligations.RegisterMapIsExact := by
  refine ⟨fun off r _ aligned => regAt_eq_some_iff aligned, fun off inside aligned => ?_⟩
  rw [regAt_eq_none_iff aligned]
  omega

/-- The register that an access reaches is one of the map, at the access's offset. -/
theorem Access.reg_of_target {acc : Access} {r : Reg} (h : acc.target = .reg r) :
    r.wf = true ∧ r.offset = acc.off.toNat := by
  unfold Access.target at h
  split at h
  · cases h
  · split at h
    · cases h
    · next aligned =>
      split at h
      · next found =>
        cases h
        exact (regAt_eq_some_iff (not_not.mp aligned)).mp found
      · cases h

theorem Reg.offset_lt {r : Reg} (wf : r.wf = true) : r.offset < 2 ^ 16 := by
  cases r with
  | deftab m =>
    have inside : m < 16 := of_decide_eq_true wf
    rw [Reg.offset]
    omega
  | traceLo k | traceHi k =>
    have inside : k < 2048 := of_decide_eq_true (p := k < Config.traceDepth) wf
    rw [Reg.offset]
    omega
  | _ => decide

theorem Reg.offset_aligned (r : Reg) : r.offset % 4 = 0 := by
  cases r <;> simp only [Reg.offset] <;> omega

theorem Reg.offset_toNat {r : Reg} (wf : r.wf = true) : (BitVec.ofNat 16 r.offset).toNat = r.offset :=
  Nat.mod_eq_of_lt (Reg.offset_lt wf)

/-- A 32-bit access at a register's offset reaches the register. -/
theorem Access.target_of_offset {r : Reg} (wf : r.wf = true) {acc : Access} (width : acc.width = .w32)
    (off : acc.off = BitVec.ofNat 16 r.offset) : acc.target = .reg r := by
  have place : acc.off.toNat = r.offset := off ▸ Reg.offset_toNat wf
  exact Access.target_eq_reg width (place ▸ r.offset_aligned) (place ▸ regAt_offset wf)

/-! ### The fields of the registers (10_state.md R15 to R26) -/

/-- A zero-extended field is read back from the low bits. -/
theorem extractLsb'_setWidth_field {width : Nat} (field : BitVec width) (fits : width ≤ 32) :
    (field.setWidth 32).extractLsb' 0 width = field := by
  rw [BitVec.extractLsb'_setWidth_of_le (by omega), BitVec.extractLsb'_eq_self]

theorem FieldCfg.word_fields (c : FieldCfg) : c.word.extractLsb' 0 4 = c.m ∧ c.word.extractLsb' 8 9 = c.poly := by
  unfold FieldCfg.word
  constructor
  · exact BitVec.extractLsb'_append_eq_right
  · rw [BitVec.extractLsb'_append_eq_of_le (by decide), BitVec.extractLsb'_append_eq_of_le (by decide)]
    exact BitVec.extractLsb'_append_eq_right

/-- Settles O20: each field is read back from its place, and a count of at most 2048 fits its 16 bits. -/
theorem registersReadTheirFields : Obligations.RegistersReadTheirFields := by
  intro s v
  obtain ⟨m, poly⟩ := s.cfg.word_fields
  refine ⟨rfl, extractLsb'_setWidth_field _ (by decide), m, poly, rfl, fun room => ?_, ?_, ?_, ?_, rfl⟩
  · rw [State.readReg, State.traceCountWord, extractLsb'_setWidth_field _ (by decide)]
    exact Nat.mod_eq_of_lt (by omega)
  · rw [State.writeReg_a]
    rfl
  · rw [State.writeReg_b]
    rfl
  · rw [State.writeReg_x]
    rfl

/-! ### Host programs (30_encoding.md R64, R65) -/

theorem OperandReg.reg_wf (r : OperandReg) : r.reg.wf = true := by
  cases r <;> rfl

/-- T above OP in a zero-extended word is the bit 0x10 (30_encoding.md R50). -/
theorem fields_or : ∀ (t : Bool) (op : BitVec 4),
    (BitVec.ofBool t ++ op).setWidth 32 = op.setWidth 32 ||| (if t then (0x10 : Word) else 0) := by decide

theorem programInputs_cons (line : AsmLine) (lines : List AsmLine) :
    programInputs (line :: lines) = line.expand.map Input.access ++ programInputs lines := by
  rw [programInputs, List.flatMap_cons, List.map_append, programInputs]

/-- Settles O25: the lines expand by definition, their accesses reach the registers they name, and a command's word is
T and OP. -/
theorem hostProgramLinesExpand : Obligations.HostProgramLinesExpand := by
  refine ⟨fun v => ⟨rfl, rfl, rfl, rfl⟩, fun r => ⟨?_, fun v => ?_⟩, fun r wf => ?_, fun i => ?_, fun w => rfl,
    fun t => ⟨rfl, ?_⟩, fun m poly => rfl, fun m => rfl, fun t a => rfl, fun k => rfl, rfl, programInputs_cons⟩
  · exact Access.target_of_offset r.reg_wf rfl rfl
  · exact Access.target_of_offset r.reg_wf rfl rfl
  · exact ⟨BitVec.ofNat 16 r.offset, rfl, Reg.offset_toNat wf, Access.target_of_offset wf rfl rfl⟩
  · rw [← fields_or, ← encode_eq_setWidth]
    rfl
  · cases t <;> rfl

end Sys2Proof.Machine
end

section
/-! The words of the Step records (30_encoding.md R56 to R62): the formulas, and that a word and its record determine
each other, since the fields of a variant cover all 64 bits. -/

namespace Sys2Proof.Machine

/-- Settles O22: the fields side by side are the fields shifted to their places. -/
theorem recordWordsAreTheFormulas : Obligations.RecordWordsAreTheFormulas := by
  refine ⟨?_, ?_, ?_, ?_, ?_⟩
  all_goals
    intros
    rw [StepRecord.word]
    repeat rw [BitVec.toNat_append]
    simp [Nat.shiftLeft_or_distrib, ← Nat.shiftLeft_add]

/-! ### A word is its fields -/

/-- Two fields side by side are a slice of a word exactly when each is its own slice. -/
theorem append_eq_extractLsb'_iff {width n k start : Nat} {hi : BitVec n} {lo : BitVec k} {w : BitVec width} :
    hi ++ lo = w.extractLsb' start (n + k) ↔ hi = w.extractLsb' (start + k) n ∧ lo = w.extractLsb' start k := by
  rw [← BitVec.extractLsb'_append_extractLsb'_eq_extractLsb' (start₂ := start + k) rfl]
  refine ⟨fun same => ⟨?_, ?_⟩, fun ⟨high, low⟩ => by rw [high, low]⟩
  · have high := congrArg (BitVec.extractLsb' k n) same
    rwa [BitVec.extractLsb'_append_eq_left, BitVec.extractLsb'_append_eq_left] at high
  · have low := congrArg (BitVec.extractLsb' 0 k) same
    rwa [BitVec.extractLsb'_append_eq_right, BitVec.extractLsb'_append_eq_right] at low

theorem ofBool_eq_extractLsb'_iff {width k : Nat} {b : Bool} {w : BitVec width} :
    BitVec.ofBool b = w.extractLsb' k 1 ↔ b = w.getLsbD k := by
  have injective : ∀ b b' : Bool, BitVec.ofBool b = BitVec.ofBool b' ↔ b = b' := by decide
  have slice : w.extractLsb' k 1 = BitVec.ofBool (w.getLsbD k) := by
    ext j inside
    obtain rfl : j = 0 := by omega
    simp
  rw [slice]
  exact injective b (w.getLsbD k)

/-- The tag, the fields and the reserved zeros of a record stand at their places in a word (30_encoding.md R58 to
R62). -/
def StepRecord.StandsIn (w : RecordWord) : StepRecord → Prop
  | .mul i bBit aBefore aAfter pBefore pAfter =>
    1 = recordTag w ∧ 0 = w.extractLsb' 56 4 ∧ pAfter = w.extractLsb' 40 16 ∧ pBefore = w.extractLsb' 24 16 ∧
      aAfter = w.extractLsb' 16 8 ∧ aBefore = w.extractLsb' 8 8 ∧ 0 = w.extractLsb' 4 4 ∧ bBit = w.getLsbD 3 ∧
      i = w.extractLsb' 0 3
  | .reduce carry before after =>
    2 = recordTag w ∧ 0 = w.extractLsb' 40 20 ∧ after = w.extractLsb' 24 16 ∧ before = w.extractLsb' 8 16 ∧
      carry = w.extractLsb' 0 8
  | .mod before after =>
    3 = recordTag w ∧ 0 = w.extractLsb' 32 28 ∧ after = w.extractLsb' 16 16 ∧ before = w.extractLsb' 0 16
  | .exp bit baseBefore baseAfter accBefore accAfter =>
    4 = recordTag w ∧ 0 = w.extractLsb' 40 20 ∧ accAfter = w.extractLsb' 32 8 ∧ accBefore = w.extractLsb' 24 8 ∧
      baseAfter = w.extractLsb' 16 8 ∧ baseBefore = w.extractLsb' 8 8 ∧ 0 = w.extractLsb' 1 7 ∧ bit = w.getLsbD 0
  | .egcd a b q r t0 t1 =>
    5 = recordTag w ∧ t1 = w.extractLsb' 50 10 ∧ t0 = w.extractLsb' 40 10 ∧ r = w.extractLsb' 30 10 ∧
      q = w.extractLsb' 20 10 ∧ b = w.extractLsb' 10 10 ∧ a = w.extractLsb' 0 10

theorem StepRecord.word_eq_iff {w : RecordWord} {rec : StepRecord} : rec.word = w ↔ rec.StandsIn w := by
  have whole : w.extractLsb' 0 64 = w := BitVec.extractLsb'_eq_self
  conv_lhs => rw [← whole]
  cases rec <;>
    · rw [StepRecord.word]
      repeat rw [append_eq_extractLsb'_iff]
      simp only [ofBool_eq_extractLsb'_iff, and_assoc, StepRecord.StandsIn]
      rfl

/-! ### Reading a record (30_encoding.md R57) -/

/-- A word that is read as a record has the record's tag, its reserved bits were checked, and the fields were taken from
their places. -/
theorem StepRecord.standsIn_of_recordOfWord {w : RecordWord} {rec : StepRecord} (h : recordOfWord w = some rec) :
    rec.StandsIn w := by
  unfold recordOfWord at h
  split at h
  · next tag =>
    obtain ⟨⟨high, low⟩, fields⟩ := Option.ite_none_right_eq_some.mp h
    cases fields
    exact ⟨(BitVec.eq_of_toNat_eq tag).symm, high.symm, rfl, rfl, rfl, rfl, low.symm, rfl, rfl⟩
  · next tag =>
    obtain ⟨high, fields⟩ := Option.ite_none_right_eq_some.mp h
    cases fields
    exact ⟨(BitVec.eq_of_toNat_eq tag).symm, high.symm, rfl, rfl, rfl⟩
  · next tag =>
    obtain ⟨high, fields⟩ := Option.ite_none_right_eq_some.mp h
    cases fields
    exact ⟨(BitVec.eq_of_toNat_eq tag).symm, high.symm, rfl, rfl⟩
  · next tag =>
    obtain ⟨⟨high, low⟩, fields⟩ := Option.ite_none_right_eq_some.mp h
    cases fields
    exact ⟨(BitVec.eq_of_toNat_eq tag).symm, high.symm, rfl, rfl, rfl, rfl, low.symm, rfl⟩
  · next tag =>
    cases h
    exact ⟨(BitVec.eq_of_toNat_eq tag).symm, rfl, rfl, rfl, rfl, rfl, rfl⟩
  · cases h

theorem StepRecord.StandsIn.recordOfWord {w : RecordWord} {rec : StepRecord} (h : rec.StandsIn w) :
    recordOfWord w = some rec := by
  cases rec with
  | mul =>
    obtain ⟨tag, high, rfl, rfl, rfl, rfl, low, rfl, rfl⟩ := h
    simp only [Machine.recordOfWord, ← tag, ← high, ← low]
    rfl
  | reduce =>
    obtain ⟨tag, high, rfl, rfl, rfl⟩ := h
    simp only [Machine.recordOfWord, ← tag, ← high]
    rfl
  | mod =>
    obtain ⟨tag, high, rfl, rfl⟩ := h
    simp only [Machine.recordOfWord, ← tag, ← high]
    rfl
  | exp =>
    obtain ⟨tag, high, rfl, rfl, rfl, rfl, low, rfl⟩ := h
    simp only [Machine.recordOfWord, ← tag, ← high, ← low]
    rfl
  | egcd =>
    obtain ⟨tag, rfl, rfl, rfl, rfl, rfl, rfl⟩ := h
    simp only [Machine.recordOfWord, ← tag]
    rfl

theorem recordOfWord_eq_some_iff {w : RecordWord} {rec : StepRecord} : recordOfWord w = some rec ↔ rec.word = w :=
  ⟨fun h => StepRecord.word_eq_iff.mpr (StepRecord.standsIn_of_recordOfWord h),
    fun h => (StepRecord.word_eq_iff.mp h).recordOfWord⟩

theorem StepRecord.tag_range (rec : StepRecord) : 1 ≤ rec.tag.toNat ∧ rec.tag.toNat ≤ 5 := by
  cases rec <;> simp [StepRecord.tag]

/-- Settles O23: a word reads as a record exactly when it is the record's word. -/
theorem recordWordsReadBack : Obligations.RecordWordsReadBack := by
  refine ⟨fun rec => ⟨recordOfWord_eq_some_iff.mpr rfl, ?_⟩, fun w rec => recordOfWord_eq_some_iff.mp⟩
  rw [recordTag_word]
  exact rec.tag_range

end Sys2Proof.Machine
end

section
/-! What a command leaves unchanged (60_exceptions.md R103, R108), from the three ways a command can go on: it writes
RES, or CFG, or it raises an error. -/

namespace Sys2Proof.Machine

/-! ### How a command goes on -/

/-- Everything the next state of a command can be, up to the records in its trace. -/
theorem exec_next_cases {i : Instr} {s t : State} (h : exec i s = .next t) :
    (∃ v, (commandBody i (s.beginCommand i.traced)).result = .value (.writeRes v) ∧
      t = { commandDone s .clear t.trace with res := v }) ∨
    (∃ c, (commandBody i (s.beginCommand i.traced)).result = .value (.writeCfg c) ∧
      t = { commandDone s .clear t.trace with cfg := c }) ∨
    (∃ e, (commandBody i (s.beginCommand i.traced)).result = .error e ∧
      t = commandDone s (.raised e) t.trace) := by
  rw [exec_eq_frame, frame_eq] at h
  generalize (commandBody i (s.beginCommand i.traced)).result = result at h ⊢
  obtain (v | c) | e | _ := result <;> cases h
  · exact .inl ⟨v, rfl, rfl⟩
  · exact .inr (.inl ⟨c, rfl, rfl⟩)
  · exact .inr (.inr ⟨e, rfl, rfl⟩)

theorem exec_raised {i : Instr} {s t : State} {e : CoreError} (h : exec i s = .next t) (raised : t.err = .raised e) :
    (commandBody i (s.beginCommand i.traced)).result = .error e ∧ t = commandDone s (.raised e) t.trace := by
  obtain ⟨v, -, out⟩ | ⟨c, -, out⟩ | ⟨e', body, out⟩ := exec_next_cases h <;> rw [out] at raised <;> cases raised
  exact ⟨body, out⟩

/-- Settles O52: of the three ways to go on, the one that raises changes nothing else. -/
theorem errorsArePrecise : Obligations.ErrorsArePrecise := by
  intro i s t e h raised
  obtain ⟨-, out⟩ := exec_raised h raised
  exact out

/-! ### What the configuration commands answer (40_configuration.md R66, R67) -/

theorem setcfgBody_cases (s : State) :
    setcfgBody s = Run.raise .invalidFieldSize ∨ setcfgBody s = Run.raise .invalidModulus ∨
      ∃ c, setcfgBody s = Run.pure (.writeCfg c) := by
  by_cases bad : badDegree s.rawA
  · exact .inl (setcfgBody_of_badDegree bad)
  by_cases degree : deg s.rawX = (s.rawA : Int)
  · exact .inr (.inr ⟨_, setcfgBody_of_deg_eq bad degree⟩)
  · exact .inr (.inl (setcfgBody_of_deg_ne bad degree))

theorem defcfgBody_cases (s : State) :
    defcfgBody s = Run.raise .invalidFieldSize ∨ ∃ c, defcfgBody s = Run.pure (.writeCfg c) := by
  by_cases bad : badDegree s.rawA
  · exact .inl (defcfgBody_of_badDegree bad)
  · exact .inr ⟨_, defcfgBody_of_legal bad⟩

theorem isConfig_of_writes_res {i : Instr} {s : State} {v : BitVec 32}
    (h : (commandBody i s).result = .value (.writeRes v)) : isConfig i = false := by
  cases i with
  | setcfg _ =>
    obtain body | body | ⟨c, body⟩ := setcfgBody_cases s <;> rw [commandBody, body] at h <;> cases h
  | defcfg _ =>
    obtain body | ⟨c, body⟩ := defcfgBody_cases s <;> rw [commandBody, body] at h <;> cases h
  | _ => rfl

/-! ### The frame -/

/-- Settles O50: case by case of how the command goes on. -/
theorem commandFrame : Obligations.CommandFrame := by
  intro i s t h
  obtain ⟨v, body, out⟩ | ⟨c, body, out⟩ | ⟨e, -, out⟩ := exec_next_cases h <;> rw [out]
  · have returns := isConfig_of_writes_res body
    exact ⟨rfl, rfl, rfl, rfl, rfl, rfl, rfl, rfl, fun _ => rfl, fun loads => by simp [returns] at loads,
      fun error => absurd rfl error⟩
  · have loads := isConfig_of_writes_cfg body
    exact ⟨rfl, rfl, rfl, rfl, rfl, rfl, rfl, rfl, fun returns => by simp [loads] at returns, fun _ => rfl,
      fun error => absurd rfl error⟩
  · exact ⟨rfl, rfl, rfl, rfl, rfl, rfl, rfl, rfl, fun _ => rfl, fun _ => rfl, fun _ => ⟨rfl, rfl⟩⟩

/-- An offset reads alike in two states when the register that lies there does. -/
theorem State.readWindow_of_readReg {s s' : State} {off : Offset}
    (same : ∀ r : Reg, r.wf = true → r.offset = off.toNat → s.readReg r = s'.readReg r) :
    s.readWindow off = s'.readWindow off := by
  unfold State.readWindow
  rcases target : (Access.read .w32 off).target with r | c
  · obtain ⟨wf, place⟩ := Access.reg_of_target target
    exact congrArg some (same r wf place)
  · rfl

/-- Settles O51: the frame, register by register; the registers that a command may write lie at the offsets left out. -/
theorem commandFrameInTheWindow : Obligations.CommandFrameInTheWindow := by
  intro i s t off h notStatus notCount notTrace notCfg notRes
  obtain ⟨a, b, x, e, -, -, -, -, cfg, res, -⟩ := commandFrame i s t h
  refine State.readWindow_of_readReg fun r wf place => ?_
  have here : off = BitVec.ofNat 16 r.offset := by rw [place, BitVec.ofNat_toNat, BitVec.setWidth_eq]
  cases r with
  | cmd | deftab _ => rfl
  | a => exact congrArg (BitVec.setWidth 32) a
  | b => exact congrArg (BitVec.setWidth 32) b
  | x => exact congrArg (BitVec.setWidth 32) x
  | e => exact e
  | status => exact absurd here notStatus
  | traceCount => exact absurd here notCount
  | cfg =>
    refine congrArg FieldCfg.word (cfg ?_)
    rw [← Bool.not_eq_true]
    exact fun loads => notCfg loads here
  | res =>
    refine res ?_
    rw [← Bool.not_eq_false]
    exact fun returns => notRes returns here
  | traceLo k | traceHi k =>
    have inside : k < 2048 := of_decide_eq_true (p := k < Config.traceDepth) wf
    rw [← place, Reg.offset] at notTrace
    omega

end Sys2Proof.Machine
end

section
/-! The step, input by input (20_memory.md R43 to R45, 70_reset_and_hazards.md R113, R116, R119): one input is performed
at a time, and what waits behind it is neither read nor changed. -/

namespace Sys2Proof.Machine

/-! ### The step by what waits -/

theorem step_of_idle {s : State} (idle : s.pending = []) : step s = .next s := by
  simp [step, performNext, idle]

theorem step_of_held {s : State} {acc : Access} {rest : List Input} (running : s.busy = true)
    (waiting : s.pending = .access acc :: rest) : step s = .next s := by
  simp [step, performNext, waiting, running]

theorem step_of_reset {s : State} {rest : List Input} (waiting : s.pending = .reset :: rest) :
    step s = .next (s.setPending rest).platformReset := by
  simp [step, performNext, waiting]

theorem step_of_resetDuring {s : State} {w : Word} {rest : List Input}
    (waiting : s.pending = .resetDuring w :: rest) : step s = .next (s.setPending rest).resetDuringCommand := by
  simp [step, performNext, waiting]

/-- Settles O12: nothing waits, or an access is held. -/
theorem idleAndHeldStepsChangeNothing : Obligations.IdleAndHeldStepsChangeNothing :=
  ⟨fun _ => step_of_idle, fun _ _ _ => step_of_held⟩

/-- Settles O24: both resets put State.reset behind the queue; the answer and the counter are the model's own. -/
theorem resetInputResetsTheCore : Obligations.ResetInputResetsTheCore :=
  fun _ _ => ⟨step_of_reset, fun _ waiting => ⟨_, step_of_resetDuring waiting, rfl⟩⟩

/-- Settles O11: the word of CMD is run on the state that has taken the access, and it decodes to the command. -/
theorem stepRunsTheDecodedCommand : Obligations.StepRunsTheDecodedCommand := by
  intro s w i rest idle waiting command
  rw [step_of_cmdWrite idle waiting, runCommandWord, command]
  rfl

/-- What performing an input does to the state that has taken it from the queue. -/
def performInput : Input → State → StepOutcome
  | .access acc, s => performAccess acc s
  | .reset, s => .next s.platformReset
  | .resetDuring _, s => .next s.resetDuringCommand

theorem step_eq_performInput {s : State} {input : Input} {rest : List Input} (idle : s.busy = false)
    (waiting : s.pending = input :: rest) : step s = performInput input (s.setPending rest) := by
  cases input with
  | access acc => exact step_eq_performAccess idle waiting
  | reset => exact step_of_reset waiting
  | resetDuring w => exact step_of_resetDuring waiting

/-- What an access does, the same in every state. -/
theorem performAccess_kinds (acc : Access) :
    (∃ c, ∀ s, performAccess acc s = .fault (.busError c)) ∨
    (∃ r, ∀ s, performAccess acc s = .next (s.setAnswer (.data (s.readReg r)))) ∨
    (∃ w, ∀ s, performAccess acc s = runCommandWord w (s.setAnswer .written)) ∨
    (∃ v r, ∀ s, performAccess acc s = .next ((s.setAnswer .written).writeReg v r)) := by
  rcases target : acc.target with r | c
  · rcases acc with ⟨width, off⟩ | ⟨width, off, v⟩
    · exact .inr (.inl ⟨r, fun s => by rw [performAccess, target]⟩)
    · by_cases isCmd : r = .cmd
      · exact .inr (.inr (.inl ⟨v, fun s => by simp [performAccess, target, isCmd]⟩))
      · exact .inr (.inr (.inr ⟨v, r, fun s => by simp [performAccess, target, isCmd]⟩))
  · exact .inl ⟨c, fun s => by rw [performAccess, target]⟩

/-! ### The queue behind the oldest input (20_memory.md R45) -/

/-- A function that neither reads nor changes what waits in the queue. -/
def IgnoresQueue (f : State → StepOutcome) : Prop :=
  ∀ s t, f s = .next t → t.pending = s.pending ∧ ∀ p, f { s with pending := p } = .next { t with pending := p }

theorem ignoresQueue_exec (i : Instr) : IgnoresQueue (exec i) := by
  intro s t h
  obtain ⟨-, -, -, -, pending, -⟩ := commandFrame i s t h
  exact ⟨pending, fun p => by rw [exec_with_pending, h]⟩

theorem ignoresQueue_runCommandWord (w : Word) : IgnoresQueue (runCommandWord w) := by
  rcases decoded : decodeWord w with i | why
  · have run : runCommandWord w = exec i := funext fun s => by rw [runCommandWord, decoded]
    exact run ▸ ignoresQueue_exec i
  · have run := runCommandWord_of_illegal decoded
    intro s t h
    rw [run] at h
    cases h
    exact ⟨rfl, fun p => run _⟩

theorem ignoresQueue_performAccess (acc : Access) : IgnoresQueue (performAccess acc) := by
  intro s t h
  obtain ⟨c, run⟩ | ⟨r, run⟩ | ⟨w, run⟩ | ⟨v, r, run⟩ := performAccess_kinds acc <;> simp only [run] at h ⊢
  · cases h
  · cases h
    refine ⟨rfl, fun p => ?_⟩
    rw [s.readReg_host_side p s.answer r]
    rfl
  · exact ignoresQueue_runCommandWord w _ t h
  · cases h
    cases r <;> exact ⟨rfl, fun p => rfl⟩

theorem ignoresQueue_performInput (input : Input) : IgnoresQueue (performInput input) := by
  cases input with
  | access acc => exact ignoresQueue_performAccess acc
  | reset | resetDuring _ =>
    intro s t h
    cases h
    exact ⟨rfl, fun p => rfl⟩

/-- Settles O13: the step performs the oldest input on a state without it, and performing ignores the queue, so it does
not matter when the later inputs are offered. -/
theorem inputsArePerformedInOrder : Obligations.InputsArePerformedInOrder := by
  intro s t input rest later idle waiting h
  rw [step_eq_performInput idle waiting] at h
  obtain ⟨taken, others⟩ := ignoresQueue_performInput input _ t h
  have queue : (offer later s).pending = input :: (rest ++ later) := by
    rw [offer, State.setPending_pending, waiting, List.cons_append]
  have out : offer later t = { t with pending := rest ++ later } := by
    rw [offer, taken]
    rfl
  refine ⟨taken, ?_⟩
  rw [step_eq_performInput (s := offer later s) idle queue, out]
  exact others (rest ++ later)

end Sys2Proof.Machine
end

section
/-! Noninterference (10_state.md R29): a command is a function of its word, A, B, X, E and CFG, and the working
registers never reach the host. -/

namespace Sys2Proof.Machine

/-- What a register reads as comes from the registers that the host can see. -/
theorem State.readReg_congr {s s' : State} (a : s.a = s'.a) (b : s.b = s'.b) (x : s.x = s'.x) (e : s.e = s'.e)
    (res : s.res = s'.res) (err : s.err = s'.err) (cfg : s.cfg = s'.cfg) (trace : s.trace = s'.trace) (r : Reg) :
    s.readReg r = s'.readReg r := by
  cases r <;>
    simp only [State.readReg, State.statusWord, State.traceCountWord, State.traceCount, State.recordWord, a, b, x, e,
      res, err, cfg, trace]

/-! ### A command depends on its operands only -/

/-- Two states that agree on A, B, X, E and CFG begin the command alike, so its body answers and records the same. -/
theorem exec_congr {i : Instr} {s s' t : State} (a : s.a = s'.a) (b : s.b = s'.b) (x : s.x = s'.x) (e : s.e = s'.e)
    (cfg : s.cfg = s'.cfg) (h : exec i s = .next t) :
    ∃ t', exec i s' = .next t' ∧ t'.err = t.err ∧ t'.trace = t.trace ∧ t'.cfg = t.cfg ∧
      (t.err = .clear → isConfig i = false → t'.res = t.res) ∧ (s'.res = s.res → t'.res = t.res) := by
  have body : commandBody i (s'.beginCommand i.traced) = commandBody i (s.beginCommand i.traced) :=
    commandBody_congr i a.symm b.symm x.symm e.symm cfg.symm rfl
  have trace := State.emitAll_trace_congr (s := s'.beginCommand i.traced) (s' := s.beginCommand i.traced) rfl
  rw [exec_eq_frame, frame_eq] at h ⊢
  rw [body, trace]
  rcases result : (commandBody i (s.beginCommand i.traced)).result with (v | c) | e | _ <;>
    rw [result] at h <;> cases h
  · exact ⟨_, rfl, rfl, rfl, cfg.symm, fun _ _ => rfl, fun _ => rfl⟩
  · refine ⟨_, rfl, rfl, rfl, rfl, fun _ returns => ?_, id⟩
    rw [isConfig_of_writes_cfg result] at returns
    cases returns
  · exact ⟨_, rfl, rfl, rfl, cfg.symm, nofun, id⟩

/-- Settles O59: the two outcomes agree on what the command writes, and by the frame on everything else that is read. -/
theorem commandsDependOnOperandsOnly : Obligations.CommandsDependOnOperandsOnly := by
  intro i s s' t a b x e cfg h
  obtain ⟨t', h', err, trace, loaded, written, kept⟩ := exec_congr a b x e cfg h
  refine ⟨t', h', err, trace, loaded, written, fun res off => State.readWindow_of_readReg fun r _ _ => ?_⟩
  obtain ⟨ta, tb, tx, te, -⟩ := commandFrame i s t h
  obtain ⟨ta', tb', tx', te', -⟩ := commandFrame i s' t' h'
  exact State.readReg_congr (by rw [ta, ta', a]) (by rw [tb, tb', b]) (by rw [tx, tx', x]) (by rw [te, te', e])
    (kept res) err loaded trace r

/-! ### The working registers never reach the host -/

/-- Two outcomes that agree, but for the working registers of the next state. -/
def AgreeUpToWork (o o' : StepOutcome) : Prop :=
  (∀ t, o = .next t → ∃ w, o' = .next { t with work := w }) ∧ ∀ f, o = .fault f → o' = .fault f

theorem AgreeUpToWork.refl (o : StepOutcome) : AgreeUpToWork o o := ⟨fun t h => ⟨t.work, h⟩, fun _ h => h⟩

theorem AgreeUpToWork.next (t : State) (w : Working) : AgreeUpToWork (.next t) (.next { t with work := w }) := by
  refine ⟨fun u h => ?_, nofun⟩
  cases h
  exact ⟨w, rfl⟩

/-- A command neither reads the working registers nor leaves anything of them. -/
theorem exec_of_other_work (i : Instr) (s : State) (w : Working) : exec i { s with work := w } = exec i s := by
  have body : commandBody i (State.beginCommand { s with work := w } i.traced)
      = commandBody i (s.beginCommand i.traced) := commandBody_congr i rfl rfl rfl rfl rfl rfl
  have trace := State.emitAll_trace_congr (s := State.beginCommand { s with work := w } i.traced)
    (s' := s.beginCommand i.traced) rfl
  rw [exec_eq_frame, exec_eq_frame, frame_eq, frame_eq, body, trace]
  rfl

theorem runCommandWord_agree (word : Word) (s : State) (w : Working) :
    AgreeUpToWork (runCommandWord word s) (runCommandWord word { s with work := w }) := by
  rcases decoded : decodeWord word with i | why
  · simp only [runCommandWord, decoded, exec_of_other_work]
    exact .refl _
  · rw [runCommandWord_of_illegal decoded, runCommandWord_of_illegal decoded]
    exact .next _ w

theorem performAccess_agree (acc : Access) (s : State) (w : Working) :
    AgreeUpToWork (performAccess acc s) (performAccess acc { s with work := w }) := by
  obtain ⟨c, run⟩ | ⟨r, run⟩ | ⟨word, run⟩ | ⟨v, r, run⟩ := performAccess_kinds acc <;> simp only [run]
  · exact .refl _
  · rw [State.readReg_congr (s := { s with work := w }) (s' := s) rfl rfl rfl rfl rfl rfl rfl rfl]
    exact .next _ w
  · exact runCommandWord_agree word (s.setAnswer .written) w
  · cases r <;> exact .next _ w

theorem step_agree (s : State) (w : Working) : AgreeUpToWork (step s) (step { s with work := w }) := by
  obtain ⟨waiting, out⟩ | ⟨acc, rest, waiting, running, out⟩ | ⟨acc, rest, waiting, idle, out⟩ |
    ⟨rest, waiting, out⟩ | ⟨word, rest, waiting, out⟩ := step_cases s <;> rw [out]
  · rw [step_of_idle (s := { s with work := w }) waiting]
    exact .next s w
  · rw [step_of_held (s := { s with work := w }) running waiting]
    exact .next s w
  · rw [step_eq_performAccess (s := { s with work := w }) idle waiting]
    exact performAccess_agree acc _ w
  · rw [step_of_reset (s := { s with work := w }) waiting]
    exact .refl _
  · rw [step_of_resetDuring (s := { s with work := w }) waiting]
    exact .refl _

/-- Settles O60: a command and a reset overwrite the working registers, and nothing else that a step does reads or
writes them. -/
theorem hiddenStateNeverLeaks : Obligations.HiddenStateNeverLeaks := step_agree

end Sys2Proof.Machine
end

section
/-! Every command completes (70_reset_and_hazards.md R115): only the inverter's loop could fail to end, and under a
nonzero modulus its fuel is enough; so every step from a valid configuration is safe. -/

namespace Sys2Proof.Machine

/-! ### The datapath ends -/

/-- A datapath run that ends, with a value or an error. -/
def Run.Ends {α : Type} (run : Run α) : Prop := run.result ≠ .neverEnds

theorem Run.ends_pure {α : Type} (v : α) : (Run.pure v).Ends := nofun

theorem Run.ends_raise {α : Type} (e : CoreError) : (Run.raise e : Run α).Ends := nofun

theorem Run.ends_emit (on : Bool) (rec : StepRecord) : (Run.emit on rec).Ends := nofun

theorem Run.Ends.bind {α β : Type} {first : Run α} {next : α → Run β} (head : first.Ends)
    (tail : ∀ v, (next v).Ends) : (first.bind next).Ends := by
  unfold Run.Ends at *
  rw [Run.bind_result]
  cases result : first.result with
  | value v => exact tail v
  | error e => nofun
  | neverEnds => exact absurd result head

theorem Run.Ends.toRes {run : Run Nat} (h : run.Ends) : run.toRes.Ends := h.bind fun _ => Run.ends_pure _

theorem reduce_ends (c : FieldCfg) (on : Bool) (x : Nat) : (reduce c on x).Ends := by
  by_cases degree : deg c.modulus = (c.degree : Int)
  · rw [reduce_of_degree degree]
    nofun
  · rw [reduce_of_deg_ne degree]
    exact Run.ends_raise _

theorem multiply_ends (c : FieldCfg) (on : Bool) (a b : Nat) : (multiply c on a b).Ends :=
  reduce_ends c on (rawProduct a b c.degree)

theorem powerLoop_ends (c : FieldCfg) (nested on : Bool) (fuel e b acc : Nat) :
    (powerLoop c nested on fuel e b acc).Ends := by
  induction fuel generalizing e b acc with
  | zero => exact Run.ends_pure acc
  | succ fuel ih =>
    unfold powerLoop
    split
    · exact Run.ends_pure acc
    · refine Run.Ends.bind ?_ fun acc' => (multiply_ends c _ b b).bind fun b' =>
        (Run.ends_emit _ _).bind fun _ => ih _ b' acc'
      split
      · exact multiply_ends c _ acc b
      · exact Run.ends_pure acc

theorem invertEnd_ne_neverEnds (uEnd gEnd : Nat) : invertEnd uEnd gEnd ≠ .neverEnds := by
  unfold invertEnd
  split <;> nofun

/-- The degrees of an 8-bit operand and a nonzero 9-bit modulus sum to less than the loop's fuel. -/
theorem invert_ends {c : FieldCfg} (modulus : c.modulus ≠ 0) (nested on : Bool) {a : Nat} (ha : a < 2 ^ 8) :
    (invert c nested on a).Ends := by
  by_cases zero : a = 0
  · rw [zero, invert_zero]
    exact Run.ends_raise _
  have degA : deg a < ((8 : Nat) : Int) := (deg_lt_iff a 8).mpr ha
  have degP : deg c.modulus < ((9 : Nat) : Int) := (deg_lt_iff _ 9).mpr c.poly.isLt
  have start : (Euclid.start a c.modulus).degSum = deg a + deg c.modulus := rfl
  have room : (Euclid.start a c.modulus).degSum < (inverterFuel : Int) := by
    rw [start, inverterFuel]
    omega
  obtain ⟨recs, uEnd, gEnd, -, run⟩ :=
    invertLoop_follows_steps inverterFuel (x := Euclid.start a c.modulus) zero modulus room
  have loop : (invertLoop on inverterFuel (Euclid.start a c.modulus)).Ends := by
    rw [Run.Ends, run]
    exact invertEnd_ne_neverEnds uEnd gEnd
  rw [invert, if_neg zero]
  exact loop.bind fun g1 => reduce_ends c _ g1

theorem divide_ends {c : FieldCfg} (modulus : c.modulus ≠ 0) (nested on : Bool) (a : Nat) {b : Nat} (hb : b < 2 ^ 8) :
    (divide c nested on a b).Ends :=
  (invert_ends modulus nested on hb).bind fun y => multiply_ends c on a y

theorem maskBits_le (m v : Nat) : maskBits m v ≤ v := Nat.and_le_left

theorem commandBody_ends (i : Instr) {s : State} (modulus : s.cfg.modulus ≠ 0) : (commandBody i s).Ends := by
  have ha : s.maskedA < 2 ^ 8 := Nat.lt_of_le_of_lt (maskBits_le _ _) s.a.isLt
  have hb : s.maskedB < 2 ^ 8 := Nat.lt_of_le_of_lt (maskBits_le _ _) s.b.isLt
  cases i with
  | setcfg _ => obtain body | body | ⟨c, body⟩ := setcfgBody_cases s <;> rw [commandBody, body] <;> nofun
  | defcfg _ => obtain body | ⟨c, body⟩ := defcfgBody_cases s <;> rw [commandBody, body] <;> nofun
  | deg _ | add _ => exact Run.ends_pure _
  | red _ => exact (reduce_ends _ _ _).toRes
  | mul _ => exact (multiply_ends _ _ _ _).toRes
  | pow _ => exact (powerLoop_ends _ _ _ _ _ _ _).toRes
  | inv _ => exact (invert_ends modulus _ _ ha).toRes
  | div _ => exact (divide_ends modulus _ _ _ hb).toRes

/-! ### Every command completes -/

theorem exec_goes_on_or_never_ends (i : Instr) (s : State) :
    (∃ t, exec i s = .next t) ∨
    (exec i s = .fault .commandNeverCompletes ∧ ¬ (commandBody i (s.beginCommand i.traced)).Ends) := by
  rw [exec_eq_frame]
  obtain ⟨_, _, -, out⟩ | ⟨_, _, -, out⟩ | ⟨_, _, -, out⟩ | ⟨_, body, out⟩ :=
    frame_cases i.traced (commandBody i) s
  · exact .inl ⟨_, out⟩
  · exact .inl ⟨_, out⟩
  · exact .inl ⟨_, out⟩
  · exact .inr ⟨out, not_not.mpr (congrArg Run.result body)⟩

theorem exec_goes_on (i : Instr) {s : State} (modulus : s.cfg.modulus ≠ 0) : ∃ t, exec i s = .next t := by
  obtain goesOn | ⟨-, never⟩ := exec_goes_on_or_never_ends i s
  · exact goesOn
  · exact absurd (commandBody_ends i (s := s.beginCommand i.traced) modulus) never

theorem FieldCfg.valid.modulus_ne_zero {c : FieldCfg} (valid : c.valid) : c.modulus ≠ 0 :=
  ne_zero_of_deg_eq valid.deg_modulus

/-- Settles O48: under a nonzero POLY the command goes on. -/
theorem neverEndingNeedsZeroModulus : Obligations.NeverEndingNeedsZeroModulus := by
  intro i s stops
  by_contra nonzero
  obtain ⟨t, goesOn⟩ := exec_goes_on i (s := s) fun zero => nonzero (BitVec.eq_of_toNat_eq zero)
  rw [stops] at goesOn
  cases goesOn

/-- Settles O49: a valid CFG has a nonzero POLY, and the frame has no refusal. -/
theorem everyCommandCompletes : Obligations.EveryCommandCompletes := by
  refine fun i s => ⟨fun valid => exec_goes_on i valid.modulus_ne_zero, fun r => ?_⟩
  obtain ⟨t, out⟩ | ⟨out, -⟩ := exec_goes_on_or_never_ends i s <;> rw [out] <;> nofun

/-! ### The invariant and the safety of a step -/

/-- Settles O2: by computation. -/
theorem resetMeetsTheInvariant : Obligations.ResetMeetsTheInvariant := State.reset_inv

/-- Settles O3: by the cases of what a step can do, each of which keeps the invariant. -/
theorem everyStepKeepsTheInvariant : Obligations.EveryStepKeepsTheInvariant :=
  fun _ inv => ⟨fun _ => step_inv inv, afterBusError_inv inv⟩

theorem runCommandWord_goes_on (w : Word) {s : State} (valid : s.cfg.valid) : ∃ t, runCommandWord w s = .next t := by
  obtain ⟨i, -, run⟩ | ⟨_, -, run⟩ := runCommandWord_cases w s
  · rw [run]
    exact exec_goes_on i valid.modulus_ne_zero
  · exact ⟨_, run⟩

theorem performAccess_safe (acc : Access) {s : State} (valid : s.cfg.valid) : SafeOutcome (performAccess acc s) := by
  obtain ⟨c, -, out⟩ | ⟨_, _, _, -, -, out⟩ | ⟨_, _, w, -, -, out⟩ | ⟨_, _, _, _, -, -, -, out⟩ :=
    performAccess_cases acc s <;> rw [out]
  · exact .inr ⟨c, rfl⟩
  · exact .inl ⟨_, rfl⟩
  · exact .inl (runCommandWord_goes_on w (s := s.setAnswer .written) valid)
  · exact .inl ⟨_, rfl⟩

theorem step_safe {s : State} (valid : s.cfg.valid) : SafeOutcome (step s) := by
  obtain ⟨-, out⟩ | ⟨_, _, -, -, out⟩ | ⟨acc, rest, -, -, out⟩ | ⟨_, -, out⟩ | ⟨_, _, -, out⟩ :=
    step_cases s <;> rw [out]
  · exact .inl ⟨_, rfl⟩
  · exact .inl ⟨_, rfl⟩
  · exact performAccess_safe acc (s := s.setPending rest) valid
  · exact .inl ⟨_, rfl⟩
  · exact .inl ⟨_, rfl⟩

theorem step_safe_of_inv {s : State} (inv : s.Inv) : SafeOutcome (step s) := by
  obtain ⟨valid, -⟩ := inv
  exact step_safe valid

/-- Settles O5: a step that runs a command goes on, since the invariant gives a valid CFG; and every reachable state
meets the invariant. -/
theorem reachableStepsAreSafe : Obligations.ReachableStepsAreSafe :=
  ⟨fun _ => step_safe_of_inv, fun _ reachable => step_safe_of_inv reachable.inv⟩

end Sys2Proof.Machine
end

section
/-! Which command raises which error (60_exceptions.md R105, R106), and the exponentiator's value for every exponent
(44_exponentiator.md R84, R87). -/

namespace Sys2Proof.Machine

/-- Settles O40: the accumulator holds the power to the exponent's bits taken so far, and the loop takes them all. -/
theorem powerIsTheRepeatedProduct : Obligations.PowerIsTheRepeatedProduct :=
  fun _ nested on _ _ valid hb he => power_result valid nested on hb he

/-- POW with E = 0 succeeds under every CFG (44_exponentiator.md R87). -/
theorem exec_pow_zero (t : Bool) {s : State} (zero : s.e = 0) : exec (.pow t) s = .next (resultDone s [] 1) := by
  refine exec_of_toRes (powBody_eq t s) ?_ (Nat.zero_le _)
  rw [zero]
  exact powerLoop_zero_exponent _ _ _ _ _ _

/-! ### The errors of the datapath -/

theorem Run.toRes_error {run : Run Nat} {e : CoreError} (h : run.toRes.result = .error e) :
    run.result = .error e := by
  obtain ⟨v, -, out⟩ | ⟨e', error, out⟩ | ⟨-, out⟩ := run.toRes_result_cases <;> rw [out] at h <;> cases h
  exact error

section
variable {c : FieldCfg} (valid : c.valid)
include valid

theorem reduce_raises_nothing (on : Bool) (x : Nat) (e : CoreError) : (reduce c on x).result ≠ .error e := by
  rw [reduce_of_degree valid.deg_modulus]
  nofun

theorem multiply_raises_nothing (on : Bool) (a b : Nat) (e : CoreError) : (multiply c on a b).result ≠ .error e :=
  reduce_raises_nothing valid on (rawProduct a b c.degree) e

/-- The two errors of the inverter; NotInvertible needs a factor common to the operand and POLY. -/
theorem invert_error {nested on : Bool} {a : Nat} (ha : a < 2 ^ c.degree) {e : CoreError}
    (h : (invert c nested on a).result = .error e) :
    e ∈ [.noInverse, .notInvertible] ∧ (irreducible c.modulus = true → e ≠ .notInvertible) := by
  by_cases zero : a = 0
  · rw [zero, invert_zero] at h
    cases h
    exact ⟨by decide, nofun⟩
  cases prime : coprime a c.modulus with
  | true =>
    obtain ⟨recs, g, -, -, -, run⟩ := invert_of_coprime valid zero ha prime
    rw [run] at h
    cases h
  | false =>
    obtain ⟨recs, g, -, run⟩ := invert_of_not_coprime valid zero ha prime
    rw [run] at h
    cases h
    refine ⟨by decide, fun irred => ?_⟩
    rw [coprime_element_of_irreducible valid zero ha irred] at prime
    cases prime

/-- The multiplier raises nothing, so an error of the division is one of its inversion. -/
theorem divide_error {nested on : Bool} {a b : Nat} {e : CoreError}
    (h : (divide c nested on a b).result = .error e) : (invert c nested on b).result = .error e := by
  rw [divide, Run.bind_result] at h
  cases inversion : (invert c nested on b).result with
  | value y =>
    rw [inversion] at h
    exact absurd h (multiply_raises_nothing valid on a y e)
  | error e' => rwa [inversion] at h
  | neverEnds =>
    rw [inversion] at h
    cases h

end

/-! ### The errors of the commands -/

/-- A command raises errors of its own list only, and NotInvertible only under a reducible modulus. -/
theorem commandBody_error {i : Instr} {s : State} (valid : s.cfg.valid) {e : CoreError}
    (h : (commandBody i (s.beginCommand i.traced)).result = .error e) :
    e ∈ canRaise i ∧ (irreducible s.cfg.modulus = true → e ≠ .notInvertible) := by
  have ha := elementA_lt s
  have hb := elementB_lt s
  cases i with
  | setcfg t =>
    obtain body | body | ⟨c, body⟩ := setcfgBody_cases (s.beginCommand t) <;>
      rw [Instr.traced, commandBody, body] at h <;> cases h
    · exact ⟨List.mem_cons_self, nofun⟩
    · exact ⟨List.mem_cons_of_mem _ List.mem_cons_self, nofun⟩
  | defcfg t =>
    obtain body | ⟨c, body⟩ := defcfgBody_cases (s.beginCommand t) <;>
      rw [Instr.traced, commandBody, body] at h <;> cases h
    exact ⟨List.mem_cons_self, nofun⟩
  | deg _ | add _ => cases h
  | red _ => exact absurd (Run.toRes_error h) (reduce_raises_nothing valid _ _ e)
  | mul _ => exact absurd (Run.toRes_error h) (multiply_raises_nothing valid _ _ _ e)
  | pow t =>
    rw [Instr.traced, powBody_eq] at h
    have error := Run.toRes_error h
    rw [power_result valid _ _ ha s.e.isLt] at error
    cases error
  | inv t =>
    rw [Instr.traced, invBody_eq] at h
    exact invert_error valid ha (Run.toRes_error h)
  | div t =>
    rw [Instr.traced, divBody_eq] at h
    exact invert_error valid hb (divide_error valid (Run.toRes_error h))

/-- Settles O53: an error left in STATUS is one that the command's body raised. -/
theorem commandsRaiseOnlyTheirErrors : Obligations.CommandsRaiseOnlyTheirErrors := by
  refine ⟨rfl, rfl, rfl, rfl, rfl, rfl, fun i s t e valid h raised => ?_, fun i s t valid h irred raised => ?_,
    fun t s => exec_pow_zero t⟩
  · obtain ⟨body, -⟩ := exec_raised h raised
    obtain ⟨own, -⟩ := commandBody_error valid body
    exact own
  · obtain ⟨body, -⟩ := exec_raised h raised
    obtain ⟨-, invertible⟩ := commandBody_error valid body
    exact invertible irred rfl

end Sys2Proof.Machine
end

section
/-! Which command records which variants (47_step_recorder.md R98, R101): the tags of the records that each datapath
function keeps, for both values of TRACE_NESTED. -/

namespace Sys2Proof.Machine

/-! ### The tags of a run's records -/

/-- Every record that a run keeps has one of these tags. -/
def Run.RecordsOnly {α : Type} (tags : List (BitVec 4)) (run : Run α) : Prop :=
  ∀ rec ∈ run.records, rec.tag ∈ tags

theorem Run.RecordsOnly.mono {α : Type} {tags tags' : List (BitVec 4)} {run : Run α} (h : run.RecordsOnly tags)
    (sub : tags ⊆ tags') : run.RecordsOnly tags' := fun rec mem => sub (h rec mem)

theorem Run.recordsOnly_of_no_records {α : Type} {tags : List (BitVec 4)} {run : Run α} (none : run.records = []) :
    run.RecordsOnly tags := by
  intro rec mem
  rw [none] at mem
  cases mem

theorem Run.recordsOnly_emit {tags : List (BitVec 4)} {rec : StepRecord} (own : rec.tag ∈ tags) (on : Bool) :
    (Run.emit on rec).RecordsOnly tags := by
  cases on
  · exact Run.recordsOnly_of_no_records rfl
  · intro rec' mem
    rw [List.mem_singleton.mp mem]
    exact own

theorem Run.RecordsOnly.bind {α β : Type} {tags : List (BitVec 4)} {first : Run α} {next : α → Run β}
    (head : first.RecordsOnly tags) (tail : ∀ v, (next v).RecordsOnly tags) : (first.bind next).RecordsOnly tags := by
  obtain ⟨recs, v | e | _⟩ := first
  · intro rec mem
    rw [Run.bind_value] at mem
    exact (List.mem_append.mp mem).elim (head rec) (tail v rec)
  · exact head
  · exact head

theorem Run.RecordsOnly.toRes {tags : List (BitVec 4)} {run : Run Nat} (h : run.RecordsOnly tags) :
    run.toRes.RecordsOnly tags := h.bind fun _ => Run.recordsOnly_of_no_records rfl

/-! ### The datapath -/

/-- What is kept only when the trace setting is on. -/
theorem mem_of_mem_kept {on : Bool} {recs : List StepRecord} {rec : StepRecord}
    (h : rec ∈ if on then recs else []) : rec ∈ recs := by
  cases on
  · cases h
  · exact h

theorem reduceLoop_tag {on : Bool} {P fuel r : Nat} {rec : StepRecord} (h : rec ∈ (reduceLoop on P fuel r).1) :
    rec.tag = 2 := by
  induction fuel generalizing r with
  | zero => cases h
  | succ fuel ih =>
    unfold reduceLoop at h
    split at h
    · cases h
    · obtain here | there := List.mem_append.mp h
      · rw [List.mem_singleton.mp (mem_of_mem_kept here)]
        rfl
      · exact ih there

theorem mulTrace_tag {m a b : Nat} {rec : StepRecord} (h : rec ∈ mulTrace m a b) : rec.tag = 1 := by
  obtain ⟨i, -, rfl⟩ := List.mem_map.mp h
  rfl

theorem reduce_recordsOnly (c : FieldCfg) (on : Bool) (x : Nat) : (reduce c on x).RecordsOnly [2, 3] := by
  unfold reduce
  split
  · exact Run.recordsOnly_of_no_records rfl
  · intro rec mem
    obtain pass | last := List.mem_append.mp mem
    · rw [reduceLoop_tag pass]
      decide
    · rw [List.mem_singleton.mp (mem_of_mem_kept last), modRecord, StepRecord.tag]
      decide

theorem multiply_recordsOnly (c : FieldCfg) (on : Bool) (a b : Nat) : (multiply c on a b).RecordsOnly [1, 2, 3] := by
  intro rec mem
  obtain iteration | reduction := List.mem_append.mp mem
  · have product := mem_of_mem_kept iteration
    rw [mulRecords_eq_mulTrace] at product
    rw [mulTrace_tag product]
    decide
  · exact (reduce_recordsOnly c on _).mono (by decide) rec reduction

theorem powerLoop_recordsOnly (c : FieldCfg) (nested on : Bool) (fuel e b acc : Nat) :
    (powerLoop c nested on fuel e b acc).RecordsOnly [1, 2, 3, 4] := by
  have product (x y : Nat) : (multiply c (on && nested) x y).RecordsOnly [1, 2, 3, 4] :=
    (multiply_recordsOnly c _ x y).mono (by decide)
  have own : (4 : BitVec 4) ∈ [1, 2, 3, 4] := by decide
  induction fuel generalizing e b acc with
  | zero => exact Run.recordsOnly_of_no_records rfl
  | succ fuel ih =>
    unfold powerLoop
    split
    · exact Run.recordsOnly_of_no_records rfl
    · refine Run.RecordsOnly.bind ?_ fun acc' => (product b b).bind fun b' =>
        (Run.recordsOnly_emit own on).bind fun _ => ih _ b' acc'
      split
      · exact product acc b
      · exact Run.recordsOnly_of_no_records rfl

theorem invertLoop_recordsOnly (on : Bool) (fuel : Nat) (x : Euclid) : (invertLoop on fuel x).RecordsOnly [5] := by
  induction fuel generalizing x with
  | zero => exact Run.recordsOnly_of_no_records rfl
  | succ fuel ih =>
    unfold invertLoop
    split
    · exact Run.recordsOnly_of_no_records rfl
    · refine (Run.recordsOnly_emit (List.mem_singleton.mpr rfl) on).bind fun _ => ?_
      split
      · exact Run.recordsOnly_of_no_records rfl
      · exact ih _

theorem invert_recordsOnly (c : FieldCfg) (nested on : Bool) (a : Nat) :
    (invert c nested on a).RecordsOnly [2, 3, 5] := by
  unfold invert
  split
  · exact Run.recordsOnly_of_no_records rfl
  · exact ((invertLoop_recordsOnly on _ _).mono (by decide)).bind fun g1 =>
      (reduce_recordsOnly c _ g1).mono (by decide)

theorem divide_recordsOnly (c : FieldCfg) (nested on : Bool) (a b : Nat) :
    (divide c nested on a b).RecordsOnly [1, 2, 3, 5] :=
  ((invert_recordsOnly c nested on b).mono (by decide)).bind fun y => (multiply_recordsOnly c on a y).mono (by decide)

/-! ### The commands -/

theorem commandBody_recordsOnly (i : Instr) (s : State) : (commandBody i s).RecordsOnly (ownTags i) := by
  cases i with
  | setcfg _ | defcfg _ | deg _ | add _ =>
    exact Run.recordsOnly_of_no_records (commandBody_records_of_no_tags rfl s)
  | red _ => exact (reduce_recordsOnly _ _ _).toRes
  | mul _ => exact (multiply_recordsOnly _ _ _ _).toRes
  | pow _ => exact (powerLoop_recordsOnly _ _ _ _ _ _ _).toRes
  | inv _ => exact (invert_recordsOnly _ _ _ _).toRes
  | div _ => exact (divide_recordsOnly _ _ _ _ _).toRes

theorem State.mem_emit {s : State} {first rec : StepRecord} (h : rec ∈ (s.emit first).trace) :
    rec ∈ s.trace ∨ rec = first := by
  unfold State.emit at h
  split at h
  · exact (List.mem_append.mp h).imp_right List.mem_singleton.mp
  · exact .inl h

/-- The recorder adds nothing but the records it is given. -/
theorem State.mem_emitAll {s : State} {recs : List StepRecord} {rec : StepRecord}
    (h : rec ∈ (s.emitAll recs).trace) : rec ∈ s.trace ∨ rec ∈ recs := by
  induction recs generalizing s with
  | nil => exact .inl h
  | cons first rest ih =>
    obtain here | there := ih h
    · exact (State.mem_emit here).imp_right fun same => List.mem_cons.mpr (.inl same)
    · exact .inr (List.mem_cons_of_mem _ there)

/-- Settles O58: the trace after a command, an error or not, holds records of its body only. -/
theorem commandsRecordOnlyTheirVariants : Obligations.CommandsRecordOnlyTheirVariants := by
  intro i s t rec h mem
  rw [exec_trace h] at mem
  rw [recordTag_word]
  obtain old | made := State.mem_emitAll mem
  · cases old
  · exact commandBody_recordsOnly i _ rec made

end Sys2Proof.Machine
end
